-- ==== Sys2Proof/Word.lean ====
section
/-! DEFINITION. The widths of the CKBCD block: data bytes, nibbles and command words (00_scope.md R6, R8). -/

namespace Sys2Proof

/-- A data byte, `BYTE_W` = 8 bits; the accumulator has the same width, `ACC_W` = 8 (00_scope.md R6). -/
abbrev Byte := BitVec 8

/-- A nibble, `NIB_W` = 4 bits (00_scope.md R6). -/
abbrev Nibble := BitVec 4

/-- A command word, 12 bits (00_scope.md R6, 30_encoding.md R38). -/
abbrev CmdWord := BitVec 12

end Sys2Proof
end

