-- ==== Sys2Proof/Config.lean ====
section
/-! DEFINITION. The open parameters of 00_scope.md R6 and 93_implementation_defined.md, as constants with no body:
no proof can see their value, so what is proved holds for every value. -/

namespace Sys2Proof

/-- The two values of `RESET_INFLIGHT` (00_scope.md R6, 70_reset_and_hazards.md R91). -/
inductive InflightChoice where
  /-- The command completed before the reset. -/
  | performed
  /-- The command did not happen. -/
  | dropped
deriving DecidableEq, Repr, Inhabited

namespace Config

/-- `RESET_INFLIGHT`: what became of a command whose response was not yet returned when reset was asserted.
OPEN, 70_reset_and_hazards.md R91, 93_implementation_defined.md I3 (log 5). -/
opaque resetInflight : InflightChoice

/-- Whether ACC and TERM take their reset values already when reset is asserted (true) or only when it is released
(false). R91 states them for the released block; the spec is silent on the time between. DESIGN CHOICE (log 7). -/
opaque resetClearsOnAssert : Bool

/-- By how much `RSP_LATENCY` exceeds its least value 1. OPEN (log 9). -/
opaque rspLatencyExtra : Nat

/-- `RSP_LATENCY`, clock cycles from acceptance to response, a natural number of at least 1 (00_scope.md R6). No rule
reads it and the model has no time (70_reset_and_hazards.md R99). -/
def rspLatency : Nat := rspLatencyExtra + 1

end Config

end Sys2Proof
end

