-- ==== Sys2Proof/Syntax.lean ====
section
/-! DEFINITION. The command set: one constructor for each row of spec/opcode_table.json (30_encoding.md R42, R43, R46). -/

namespace Sys2Proof

/-- A decoded command, the `Cmd` of 30_encoding.md R46. The table's two RESERVED rows have one constructor each;
as in R46 a reserved command carries its `op` and no data. -/
inductive Instr where
  /-- `NOP`, op 0x0 (42_control.md R74). -/
  | nop
  /-- `CK_INIT`, op 0x1 (40_checksum.md R52). -/
  | ckInit
  /-- `CK_ADD d`, op 0x2 (40_checksum.md R53). -/
  | ckAdd (d : Byte)
  /-- `CK_END`, op 0x3 (40_checksum.md R54). -/
  | ckEnd
  /-- `BCD_INIT`, op 0x4 (41_bcd.md R63). -/
  | bcdInit
  /-- `BCD_BYTE d`, op 0x5 (41_bcd.md R64). -/
  | bcdByte (d : Byte)
  /-- `RESERVED`, match 0x600 mask 0xE00: op 0x6 and 0x7 (42_control.md R75). -/
  | reservedLow (op : Nibble)
  /-- `RESERVED`, match 0x800 mask 0x800: op 0x8 to 0xF (42_control.md R75). -/
  | reservedHigh (op : Nibble)
deriving DecidableEq, Repr

end Sys2Proof
end

