-- ==== Sys2Proof/WellFormed.lean ====
section
/-! DEFINITION. Which commands a command word can stand for (30_encoding.md R42, R43; 42_control.md R75). -/

namespace Sys2Proof

/-- The `op` of a reserved command lies in its row's range; every other command is well formed with any byte, since
"no value of `d` is illegal" (40_checksum.md R53) and all 256 bytes are operands of `BCD_BYTE` (41_bcd.md R64). -/
def Instr.wellFormed : Instr → Bool
  | .nop => true
  | .ckInit => true
  | .ckAdd _ => true
  | .ckEnd => true
  | .bcdInit => true
  | .bcdByte _ => true
  | .reservedLow op => op == 0x6#4 || op == 0x7#4
  | .reservedHigh op => decide (8 ≤ op.toNat)

end Sys2Proof
end

