-- ==== Sys2Proof/Decode.lean ====
section
/-! DEFINITION. From command words to commands and back: the fields (30_encoding.md R40), the opcode table (R42, R43),
the total decoder (R46), the encoder that writes the canonical word (R44, R51), and the decoding of raw port values. -/

namespace Sys2Proof

/-! ## Fields (R40) -/

/-- `op = w[11:8]`. -/
def opField (w : CmdWord) : Nibble := w.extractLsb' 8 4

/-- `data = w[7:0]`. -/
def dataField (w : CmdWord) : Byte := w.extractLsb' 0 8

/-- The word with the given fields, `op` in the high bits. -/
def packWord (op : Nibble) (data : Byte) : CmdWord := op ++ data

/-! ## The opcode table as match and mask (R42, R75) -/

/-- One row of spec/opcode_table.json. -/
structure OpcodeRow where
  mnemonic : String
  mask : CmdWord
  pattern : CmdWord
deriving DecidableEq, Repr

/-- The rows of spec/opcode_table.json, in its order. -/
def opcodeTable : List OpcodeRow :=
  [⟨"NOP", 0xF00#12, 0x000#12⟩,
   ⟨"CK_INIT", 0xF00#12, 0x100#12⟩,
   ⟨"CK_ADD", 0xF00#12, 0x200#12⟩,
   ⟨"CK_END", 0xF00#12, 0x300#12⟩,
   ⟨"BCD_INIT", 0xF00#12, 0x400#12⟩,
   ⟨"BCD_BYTE", 0xF00#12, 0x500#12⟩,
   ⟨"RESERVED", 0xE00#12, 0x600#12⟩,
   ⟨"RESERVED", 0x800#12, 0x800#12⟩]

/-- Does the row cover the word: `w & mask = match`? -/
def OpcodeRow.covers (r : OpcodeRow) (w : CmdWord) : Bool := (w &&& r.mask) == r.pattern

/-- The position of a command's row in `opcodeTable`. -/
def rowIndex : Instr → Nat
  | .nop => 0
  | .ckInit => 1
  | .ckAdd _ => 2
  | .ckEnd => 3
  | .bcdInit => 4
  | .bcdByte _ => 5
  | .reservedLow _ => 6
  | .reservedHigh _ => 7

/-! ## Decoding (R46) -/

/-- The total decoder of R46. `data` is ignored where the opcode has no operand (R44); `op` 0x6 and 0x7 are the first
RESERVED row, 0x8 to 0xF the second (R43). -/
def decode (w : CmdWord) : Instr :=
  match (opField w).toNat with
  | 0 => .nop
  | 1 => .ckInit
  | 2 => .ckAdd (dataField w)
  | 3 => .ckEnd
  | 4 => .bcdInit
  | 5 => .bcdByte (dataField w)
  | 6 => .reservedLow (opField w)
  | 7 => .reservedLow (opField w)
  | _ => .reservedHigh (opField w)

/-- Is the word reserved, `op` ≥ 0x6 (R43)? -/
def isReservedWord (w : CmdWord) : Bool := decide (6 ≤ (opField w).toNat)

/-- Why a raw value is no command word. -/
inductive DecodeError where
  /-- The value needs more than 12 bits: "The block accepts no access of any other width" (20_memory.md R32). -/
  | widerThanCommandWord
deriving DecidableEq, Repr

/-- Decoding of a raw port value: rejected by name when it does not fit a command word, otherwise R46 (log 10). -/
def decodeRaw (v : Nat) : Except DecodeError Instr :=
  if v < 4096 then .ok (decode (BitVec.ofNat 12 v)) else .error .widerThanCommandWord

/-- The instruction the decoder reads from an instruction of the opcode table whose bits are `w`. A command is one
word, so no bit lies above the table's (R38). -/
def decodeTableWord (_nbits w : Nat) : Option Instr :=
  match decodeRaw w with
  | .ok i => some i
  | .error _ => none

/-! ## Encoding (R42, R44, R51) -/

/-- The opcode of a command (R42, R43). -/
def opcodeOf : Instr → Nibble
  | .nop => 0x0#4
  | .ckInit => 0x1#4
  | .ckAdd _ => 0x2#4
  | .ckEnd => 0x3#4
  | .bcdInit => 0x4#4
  | .bcdByte _ => 0x5#4
  | .reservedLow op => op
  | .reservedHigh op => op

/-- The data field of the word that `encode` writes: the operand, and 0x00 where there is none (R44); for a reserved
command, of which R44 says nothing, 0x00 is the model's choice (log 12). -/
def operandOf : Instr → Byte
  | .nop => 0x00#8
  | .ckInit => 0x00#8
  | .ckAdd d => d
  | .ckEnd => 0x00#8
  | .bcdInit => 0x00#8
  | .bcdByte d => d
  | .reservedLow _ => 0x00#8
  | .reservedHigh _ => 0x00#8

/-- The canonical word of a command (R44, R51); for a reserved command the word with data 0x00 (log 12). -/
def encode (i : Instr) : CmdWord := packWord (opcodeOf i) (operandOf i)

end Sys2Proof
end

