-- ==== Sys2Proof/Machine/State.lean ====
section
/-! DEFINITION. The state of CKBCD, `Block` (10_state.md R17 to R19), the response record (R21), what the host may do at
the block's inputs (30_encoding.md R39, 70_reset_and_hazards.md R91), the machine's state, which is the block with its
surroundings at the port, and the state after reset (R92). -/

namespace Sys2Proof.Machine

/-- The state of CKBCD: exactly `ACC` and `TERM`, and nothing else (10_state.md R19). -/
structure Block where
  /-- `ACC`, the checksum accumulator (R17). -/
  acc : Byte
  /-- `TERM`, the termination flag (R18). -/
  term : Bool
deriving DecidableEq, Repr

/-- The block's reset values (70_reset_and_hazards.md R92). -/
def Block.reset : Block where
  acc := 0x00#8
  term := false

/-- The response status (60_exceptions.md R78). -/
inductive Status where
  /-- Code 0: the command was performed as its rule says. -/
  | ok
  /-- Code 1: reserved opcode, nothing was performed. -/
  | illegal
  /-- Code 2: `BCD_BYTE` after the terminator, the byte was not consumed. -/
  | discarded
  /-- Code 3: `BCD_BYTE` emitted at least one nibble in 0xA..0xE. -/
  | badNibble
deriving DecidableEq, Repr

/-- The response record of 10_state.md R21, one per command. -/
structure Resp where
  status : Status
  /-- A frame byte is emitted by this command. -/
  foValid : Bool
  /-- The frame byte; 0x00 when there is none. -/
  foByte : Byte
  /-- The emitted byte is the checksum byte ending a frame. -/
  foLast : Bool
  /-- Number of digits emitted: 0, 1 or 2. -/
  dgCount : Fin 3
  /-- First digit emitted; 0x0 when there is none. -/
  dg0 : Nibble
  /-- Second digit emitted; 0x0 when there are fewer than two. -/
  dg1 : Nibble
deriving DecidableEq, Repr

/-- What happens next at the block's inputs (log 1). -/
inductive HostAction where
  /-- The host presents a command word on the command port (30_encoding.md R39). -/
  | command (w : CmdWord)
  /-- The host asserts reset (70_reset_and_hazards.md R91). `inflight` are the words accepted before that moment whose
  responses had not been returned, oldest first; it is empty when nothing was in flight. -/
  | assertReset (inflight : List CmdWord)
  /-- The host releases reset (R91). -/
  | releaseReset
deriving DecidableEq, Repr

/-- The machine's state: the block, whose state is `Block` and nothing more (10_state.md R19), and its surroundings: the
level of its reset input, what the host will do at its inputs, and the responses it has returned. The surroundings are no
state of the block: every command is a function of `Block` alone (`cmdNop`, `cmdCkInit` and so on, R7), and they stand here
because the host's form of a step has no other place for input and output (log 1, log 2). -/
structure State extends Block where
  /-- The reset input is asserted (70_reset_and_hazards.md R91). -/
  resetIn : Bool
  /-- What the host does next, in order: the host's future, not an input FIFO of the block (the model's own field, log 1). -/
  port : List HostAction
  /-- The responses returned so far, oldest first: outputs the host has, not state of the block (the model's own field,
  log 2; 70_reset_and_hazards.md R100). -/
  responses : List Resp
deriving DecidableEq, Repr

/-- Reasons to stop with a fault: none. "CKBCD has **no trap mechanism**" and "does not stop" (60_exceptions.md R81),
and it "never stops on its own and has no halt state" (70_reset_and_hazards.md R100) (log 16). -/
inductive Fault
deriving DecidableEq, Repr

/-- Reasons to refuse an instruction. -/
inductive Refusal where
  /-- An arm of `exec` with no meaning yet would answer with this. Every arm has its meaning, so nothing raises it.
  Safe: a refusal proves nothing about the hardware. -/
  | notModelled (mnemonic : String)
deriving DecidableEq, Repr

/-- The block right after reset: ACC = 0x00, TERM = 0, no response pending (70_reset_and_hazards.md R92), reset released
(R91), and the host has done nothing yet (log 11). -/
def State.reset : State where
  toBlock := Block.reset
  resetIn := false
  port := []
  responses := []

end Sys2Proof.Machine
end

