-- ==== Sys2Proof/Machine/Operands.lean ====
section
/-! DEFINITION. The one operand form, a byte used as it stands, and its two nibbles (30_encoding.md R41, 41_bcd.md R64). -/

namespace Sys2Proof.Machine

/-- The terminator nibble `TERM_NIB` (00_scope.md R6). -/
def termNib : Nibble := 0xF#4

/-- The high nibble, `d[7:4]` (00_scope.md R13, 20_memory.md R27). -/
def hiNibble (d : Byte) : Nibble := d.extractLsb' 4 4

/-- The low nibble, `d[3:0]`. -/
def loNibble (d : Byte) : Nibble := d.extractLsb' 0 4

/-- The nibbles of a byte sequence in the decoder's order, `hi(b0), lo(b0), hi(b1), ...` (20_memory.md R27). -/
def nibblesOf (bs : List Byte) : List Nibble := bs.flatMap fun b => [hiNibble b, loNibble b]

end Sys2Proof.Machine
end

