-- ==== Sys2Proof/Machine/Ops.lean ====
section
/-! DEFINITION. The operations the command meanings share: the pseudocode primitives of 00_scope.md R10, the writes to
ACC and TERM, and returning a response. CKBCD has no registers to select, no memory, no trap entry and no trap return
(10_state.md R15, 20_memory.md R28, 60_exceptions.md R81 and R82), so there are no operations for these. -/

namespace Sys2Proof.Machine

/-! ## Building a response -/

/-- The default response of 10_state.md R21: status OK and every other field 0 or false. -/
def defaultResp : Resp where
  status := .ok
  foValid := false
  foByte := 0x00#8
  foLast := false
  dgCount := 0
  dg0 := 0x0#4
  dg1 := 0x0#4

/-- `emit_frame(b, last)` (00_scope.md R10). -/
def emitFrame (b : Byte) (last : Bool) (r : Resp) : Resp :=
  { r with foValid := true, foByte := b, foLast := last }

/-- `emit_digit(n)` (00_scope.md R10): it fills `dg0` first, then `dg1`. No command emits a third digit; the operation
would leave such a response as it is. -/
def emitDigit (n : Nibble) (r : Resp) : Resp :=
  match r.dgCount with
  | 0 => { r with dg0 := n, dgCount := 1 }
  | 1 => { r with dg1 := n, dgCount := 2 }
  | 2 => r

/-- `status <- s` (00_scope.md R10). -/
def setStatus (st : Status) (r : Resp) : Resp := { r with status := st }

/-- The digits a response carries, in order: `dg0` if `dg_count ≥ 1` and then `dg1` if `dg_count = 2` (41_bcd.md R69). -/
def respDigits (r : Resp) : List Nibble :=
  match r.dgCount with
  | 0 => []
  | 1 => [r.dg0]
  | 2 => [r.dg0, r.dg1]

/-! ## Writing the block's state -/

/-- `ACC <- v`. -/
def setAcc (v : Byte) (b : Block) : Block := { b with acc := v }

/-- `TERM <- t`. -/
def setTerm (t : Bool) (b : Block) : Block := { b with term := t }

/-! ## The block in its surroundings -/

/-- Completes a command: the block's new state and the response it returns. Responses leave in acceptance order
(30_encoding.md R39). -/
def commit (out : Block × Resp) (s : State) : State :=
  { s with toBlock := out.1, responses := s.responses ++ [out.2] }

/-- ACC and TERM take their reset values (70_reset_and_hazards.md R92). -/
def clearUnits (s : State) : State := { s with toBlock := Block.reset }

end Sys2Proof.Machine
end

