-- ==== Sys2Proof/Machine/Flags.lean ====
section
/-! DEFINITION. The flag TERM and the response status: the block's only stored flag (10_state.md R23) and its outcome
codes (60_exceptions.md R78). -/

namespace Sys2Proof.Machine

/-- The 2-bit code of a status (60_exceptions.md R78). -/
def statusCode : Status → BitVec 2
  | .ok => 0#2
  | .illegal => 1#2
  | .discarded => 2#2
  | .badNibble => 3#2

/-- Is the nibble the terminator? -/
def isTerminator (n : Nibble) : Bool := n == termNib

/-- Is the digit above 9? Of an emitted nibble this says that it is in 0xA..0xE (41_bcd.md R64, R68). -/
def aboveNine (n : Nibble) : Bool := decide (9 < n.toNat)

/-- The last clause of R64: BAD_NIBBLE if some emitted digit is above 9, else OK. It is reported once per command
(60_exceptions.md R80). -/
def setDigitStatus (r : Resp) : Resp :=
  setStatus (if (respDigits r).any aboveNine then .badNibble else .ok) r

/-- `TERM <- 1` when the byte met a terminator; never clears TERM (41_bcd.md R64). -/
def raiseTerm (met : Bool) (b : Block) : Block := setTerm (b.term || met) b

end Sys2Proof.Machine
end

