-- ==== Sys2Proof/Machine/Bcd.lean ====
section
/-! DEFINITION. Unit BCD, the BCD decoder: `BCD_INIT` and `BCD_BYTE` (41_bcd.md), and the reference function its laws
speak of. -/

namespace Sys2Proof.Machine

/-- The reference function `decodeBCD` of 41_bcd.md. -/
def decodeBCD : List Byte → List Nibble
  | [] => []
  | b :: bs =>
    if hiNibble b = 0xF#4 then []
    else if loNibble b = 0xF#4 then [hiNibble b]
    else hiNibble b :: loNibble b :: decodeBCD bs

/-- What the decoder makes of a byte when TERM = 0 on entry (R64): its response before the status is set, and whether
it met a terminator. The low nibble is not examined after a terminator in the high one (R66). -/
def splitByte (d : Byte) : Resp × Bool :=
  if isTerminator (hiNibble d) then (defaultResp, true)
  else if isTerminator (loNibble d) then (emitDigit (hiNibble d) defaultResp, true)
  else (emitDigit (loNibble d) (emitDigit (hiNibble d) defaultResp), false)

/-- `BCD_INIT` (R63). -/
def cmdBcdInit (b : Block) : Block × Resp := (setTerm false b, defaultResp)

/-- `BCD_BYTE d` (R64): discarded while TERM = 1 (R67), otherwise decoded. -/
def cmdBcdByte (d : Byte) (b : Block) : Block × Resp :=
  if b.term then (b, setStatus .discarded defaultResp)
  else (raiseTerm (splitByte d).2 b, setDigitStatus (splitByte d).1)

/-- `BCD_INIT` (R63) at the port. -/
def execBcdInit (s : State) : Host.Outcome State Fault Refusal := .next (commit (cmdBcdInit s.toBlock) s)

/-- `BCD_BYTE d` (R64) at the port. -/
def execBcdByte (d : Byte) (s : State) : Host.Outcome State Fault Refusal := .next (commit (cmdBcdByte d s.toBlock) s)

end Sys2Proof.Machine
end

