-- ==== Sys2Proof/Machine/Checksum.lean ====
section
/-! DEFINITION. Unit CKG, the checksum byte generator: `CK_INIT`, `CK_ADD`, `CK_END` (40_checksum.md), and the checksum
function its laws speak of. -/

namespace Sys2Proof.Machine

/-- `cksum` of 40_checksum.md: the natural sum of the bytes, then mod 256. -/
def cksum (bs : List Byte) : Byte := BitVec.ofNat 8 ((bs.map BitVec.toNat).sum % 256)

/-- The add of R53: `(ACC + d) mod 256`, the carry out of bit 7 discarded (R59). -/
def addByte (a d : Byte) : Byte := BitVec.ofNat 8 ((a.toNat + d.toNat) % 256)

/-- `CK_INIT` (R52). -/
def cmdCkInit (b : Block) : Block × Resp := (setAcc 0x00#8 b, defaultResp)

/-- `CK_ADD d` (R53). -/
def cmdCkAdd (d : Byte) (b : Block) : Block × Resp := (setAcc (addByte b.acc d) b, emitFrame d false defaultResp)

/-- `CK_END` (R54): ACC is emitted and left unchanged. -/
def cmdCkEnd (b : Block) : Block × Resp := (b, emitFrame b.acc true defaultResp)

/-- `CK_INIT` (R52) at the port. -/
def execCkInit (s : State) : Host.Outcome State Fault Refusal := .next (commit (cmdCkInit s.toBlock) s)

/-- `CK_ADD d` (R53) at the port. -/
def execCkAdd (d : Byte) (s : State) : Host.Outcome State Fault Refusal := .next (commit (cmdCkAdd d s.toBlock) s)

/-- `CK_END` (R54) at the port. -/
def execCkEnd (s : State) : Host.Outcome State Fault Refusal := .next (commit (cmdCkEnd s.toBlock) s)

end Sys2Proof.Machine
end

