-- ==== Sys2Proof/Machine/Control.lean ====
section
/-! DEFINITION. The commands of neither unit: `NOP` and the reserved words (42_control.md). -/

namespace Sys2Proof.Machine

/-- `NOP` does nothing and returns OK (R74). -/
def cmdNop (b : Block) : Block × Resp := (b, defaultResp)

/-- A reserved word: nothing is performed and ILLEGAL is returned; it is no trap (R75, 60_exceptions.md R81). -/
def cmdReserved (b : Block) : Block × Resp := (b, setStatus .illegal defaultResp)

/-- `NOP` (R74) at the port. -/
def execNop (s : State) : Host.Outcome State Fault Refusal := .next (commit (cmdNop s.toBlock) s)

/-- A reserved word with `op` 0x6 or 0x7 at the port: no operand is interpreted (R75). -/
def execReservedLow (_op : Nibble) (s : State) : Host.Outcome State Fault Refusal :=
  .next (commit (cmdReserved s.toBlock) s)

/-- A reserved word with `op` 0x8 to 0xF at the port: no operand is interpreted (R75). -/
def execReservedHigh (_op : Nibble) (s : State) : Host.Outcome State Fault Refusal :=
  .next (commit (cmdReserved s.toBlock) s)

end Sys2Proof.Machine
end

