-- ==== Sys2Proof/Machine/Dispatch.lean ====
section
/-! DEFINITION. The meaning of each command, one arm per constructor. -/

namespace Sys2Proof.Machine

def exec (i : Instr) (s : State) : Host.Outcome State Fault Refusal :=
  match i with
  | .nop => Sys2Proof.Machine.execNop s
  | .ckInit => Sys2Proof.Machine.execCkInit s
  | .ckAdd d => Sys2Proof.Machine.execCkAdd d s
  | .ckEnd => Sys2Proof.Machine.execCkEnd s
  | .bcdInit => Sys2Proof.Machine.execBcdInit s
  | .bcdByte d => Sys2Proof.Machine.execBcdByte d s
  | .reservedLow op => Sys2Proof.Machine.execReservedLow op s
  | .reservedHigh op => Sys2Proof.Machine.execReservedHigh op s

end Sys2Proof.Machine
end

