-- ==== Sys2Proof/Machine/Port.lean ====
section
/-! DEFINITION. The block's inputs: accepting a command word (30_encoding.md R39) and the reset input
(70_reset_and_hazards.md R91). -/

namespace Sys2Proof.Machine

/-- Performs an accepted word as one atomic step (30_encoding.md R39). -/
def acceptWord (w : CmdWord) (s : State) : Host.Outcome State Fault Refusal := exec (decode w) s

/-- Performs accepted words in acceptance order (20_memory.md R33). -/
def acceptWords : List CmdWord → State → Host.Outcome State Fault Refusal
  | [], s => .next s
  | w :: ws, s =>
    match acceptWord w s with
    | .next t => acceptWords ws t
    | .fault r => .fault r
    | .refused r => .refused r

/-- What became of the words in flight when reset was asserted: each "either completed before the reset or did not
happen" (R91). A completed one has its whole effect, its response included (20_memory.md R30) (log 5, log 6). -/
def resolveInflight (c : InflightChoice) (ws : List CmdWord) (s : State) : Host.Outcome State Fault Refusal :=
  match c with
  | .performed => acceptWords ws s
  | .dropped => .next s

/-- The reset input goes up; ACC and TERM take their reset values now or at the release (log 7). -/
def raiseReset (clearNow : Bool) (s : State) : State :=
  { (if clearNow then clearUnits s else s) with resetIn := true }

/-- Reset is asserted (R91). While it is asserted already nothing is in flight and nothing changes (log 8). -/
def assertReset (inflight : List CmdWord) (s : State) : Host.Outcome State Fault Refusal :=
  if s.resetIn then .next s
  else
    match resolveInflight Config.resetInflight inflight s with
    | .next t => .next (raiseReset Config.resetClearsOnAssert t)
    | .fault r => .fault r
    | .refused r => .refused r

/-- Reset is released: ACC and TERM hold their reset values and the block accepts commands (R91, R92). A release
without an assertion before it changes nothing (log 8). -/
def releaseReset (s : State) : State :=
  if s.resetIn then { clearUnits s with resetIn := false } else s

/-- One action of the host. While reset is asserted the block accepts no command: a word presented then has no effect
and gets no response (R91, log 4). -/
def performAction (a : HostAction) (s : State) : Host.Outcome State Fault Refusal :=
  match a with
  | .command w => if s.resetIn then .next s else acceptWord w s
  | .assertReset inflight => assertReset inflight s
  | .releaseReset => .next (releaseReset s)

/-- Takes the host's next action. With none the block waits unchanged: it "never stops on its own"
(70_reset_and_hazards.md R100, log 3). -/
def stepPort (s : State) : Host.Outcome State Fault Refusal :=
  match s.port with
  | [] => .next s
  | a :: rest => performAction a { s with port := rest }

/-- The state in which the host presents the words `ws`, one after another, before everything else. -/
def present (ws : List CmdWord) (s : State) : State :=
  { s with port := ws.map HostAction.command ++ s.port }

/-- The state in which the block will next accept the raw value `v`, with reset released; a value wider than a command
word cannot be presented (20_memory.md R32, log 10). -/
def presentRaw (v : Nat) (s : State) : State :=
  if v < 4096 then present [BitVec.ofNat 12 v] { s with resetIn := false } else s

end Sys2Proof.Machine
end

