-- ==== Sys2Proof/Machine/Step.lean ====
section
/-! DEFINITION. One step of the machine (00_scope.md R7). -/

namespace Sys2Proof.Machine

/-- One step: the host's next action at the block's inputs. -/
def step (s : State) : Host.Outcome State Fault Refusal := stepPort s

/-- `s` with the command word whose bits are `w` presented next, so that the next step accepts and runs it. A command
is one word, so `nbits` adds nothing (30_encoding.md R38). -/
def State.withFetchWord (s : State) (_nbits w : Nat) : State := presentRaw w s

end Sys2Proof.Machine
end

