-- ==== Sys2Proof/Machine/Assembler.lean ====
section
/-! DEFINITION. Assembly text (30_encoding.md R48 to R51): the pseudo-instructions, the assembler and the disassembler.
Text is a list of characters. Log 14 names the lexical details that R48 leaves open. -/

namespace Sys2Proof.Machine

/-! ## Pseudo-instructions -/

/-- `CK_FRAME b0, ..., b(n-1)` (R49). -/
def ckFrame (bs : List Byte) : List Instr := [.ckInit] ++ bs.map Instr.ckAdd ++ [.ckEnd]

/-- `BCD_DECODE b0, ..., b(n-1)` (R50). -/
def bcdDecode (bs : List Byte) : List Instr := [.bcdInit] ++ bs.map Instr.bcdByte

/-- What one line of assembly stands for (R48 to R50). -/
inductive AsmLine where
  /-- An empty line or a comment. -/
  | blank
  /-- A command. -/
  | one (i : Instr)
  /-- `.word 0xWWW`. -/
  | word (w : CmdWord)
  /-- `CK_FRAME`. -/
  | frame (bs : List Byte)
  /-- `BCD_DECODE`. -/
  | field (bs : List Byte)
deriving DecidableEq, Repr

/-- The command words a line emits; a command is written with its canonical word (R51). -/
def expandLine : AsmLine → List CmdWord
  | .blank => []
  | .one i => [encode i]
  | .word w => [w]
  | .frame bs => (ckFrame bs).map encode
  | .field bs => (bcdDecode bs).map encode

/-! ## Reading text -/

/-- A character of a line, or a quoted character `'c'` (R48). -/
inductive Token where
  | ch (c : Char)
  | quoted (c : Char)
deriving DecidableEq, Repr

/-- Marks the quoted characters of a line, so that a quoted `;` or `,` keeps its meaning as an operand. -/
def lexLine : List Char → List Token
  | a :: x :: b :: t =>
    if a = '\'' ∧ b = '\'' then .quoted x :: lexLine t else .ch a :: lexLine (x :: b :: t)
  | [a, x] => [.ch a, .ch x]
  | [a] => [.ch a]
  | [] => []

/-- Cuts a list at every separator; the separators are dropped. -/
def splitOnSep {α : Type} [DecidableEq α] (sep : α) : List α → List (List α)
  | [] => [[]]
  | x :: xs =>
    if x = sep then [] :: splitOnSep sep xs
    else
      match splitOnSep sep xs with
      | [] => [[x]]
      | g :: gs => (x :: g) :: gs

/-- Is the token a space or a tab? -/
def isBlankToken (t : Token) : Bool := t == .ch ' ' || t == .ch '\t'

/-- Drops the blanks at both ends. -/
def trimTokens (ts : List Token) : List Token :=
  ((ts.dropWhile isBlankToken).reverse.dropWhile isBlankToken).reverse

/-- The characters of the tokens, if none is quoted. -/
def charsOf (ts : List Token) : Option (List Char) :=
  ts.mapM fun t => match t with
    | .ch c => some c
    | .quoted _ => none

/-- The value of a hex digit, in either case. -/
def hexValue (c : Char) : Option Nat :=
  if 48 ≤ c.toNat ∧ c.toNat ≤ 57 then some (c.toNat - 48)
  else if 65 ≤ c.toNat ∧ c.toNat ≤ 70 then some (c.toNat - 55)
  else if 97 ≤ c.toNat ∧ c.toNat ≤ 102 then some (c.toNat - 87)
  else none

/-- The value of a decimal digit. -/
def decimalValue (c : Char) : Option Nat :=
  if 48 ≤ c.toNat ∧ c.toNat ≤ 57 then some (c.toNat - 48) else none

/-- The number that digits spell in a base, most significant first. -/
def digitsToNat (base : Nat) (ds : List Nat) : Nat := ds.foldl (fun v d => v * base + d) 0

/-- A byte written in two hex digits. -/
def hexByte (cs : List Char) : Option Byte :=
  if cs.length = 2 then (cs.mapM hexValue).map fun ds => BitVec.ofNat 8 (digitsToNat 16 ds) else none

/-- A byte written in decimal, from 0 to 255 (R48). -/
def decimalByte (cs : List Char) : Option Byte :=
  if cs = [] then none
  else
    (cs.mapM decimalValue).bind fun ds =>
      if digitsToNat 10 ds < 256 then some (BitVec.ofNat 8 (digitsToNat 10 ds)) else none

/-- A data byte: `0xHH`, a decimal literal, or a quoted ASCII character (R48). -/
def parseByte (ts : List Token) : Option Byte :=
  match ts with
  | [.quoted c] => if c.toNat < 128 then some (BitVec.ofNat 8 c.toNat) else none
  | _ =>
    match charsOf ts with
    | some ('0' :: 'x' :: cs) => hexByte cs
    | some cs => decimalByte cs
    | none => none

/-- A list of data bytes separated by commas; no text at all is the empty list, n = 0 (R49, R50). A comma with no byte on
one of its sides is rejected (log 14). -/
def parseBytes (ts : List Token) : Option (List Byte) :=
  if ts = [] then some [] else (splitOnSep (.ch ',') ts).mapM fun g => parseByte (trimTokens g)

/-- The bytes of a hex string, one for each pair of characters, in order (00_scope.md R11). -/
def hexString : List Char → Option (List Byte)
  | [] => some []
  | [_] => none
  | h :: l :: t => (hexByte [h, l]).bind fun b => (hexString t).map fun bs => b :: bs

/-- The operand of `CK_FRAME`: data bytes, or a hex string in double quotes (R49). DESIGN CHOICE (log 14): a string is the
whole operand and does not stand beside other operands, and the empty string is the empty byte list. -/
def parseFrameOperand (ts : List Token) : Option (List Byte) :=
  match charsOf ts with
  | some ('"' :: cs) => if cs.getLast? = some '"' then hexString cs.dropLast else none
  | _ => parseBytes ts

/-- The 12-bit word of `.word 0xWWW`, in three hex digits (R48). -/
def parseWord (ts : List Token) : Option CmdWord :=
  match charsOf ts with
  | some ('0' :: 'x' :: cs) =>
    if cs.length = 3 then (cs.mapM hexValue).map fun ds => BitVec.ofNat 12 (digitsToNat 16 ds) else none
  | _ => none

/-- A command without operand takes no further text (R48). -/
def withoutOperand (i : Instr) (ts : List Token) : Option AsmLine :=
  if ts = [] then some (.one i) else none

/-- The line with the given mnemonic and operand text (R48 to R50). -/
def parseStatement (name : List Char) (ts : List Token) : Option AsmLine :=
  if name = "NOP".toList then withoutOperand .nop ts
  else if name = "CK_INIT".toList then withoutOperand .ckInit ts
  else if name = "CK_ADD".toList then (parseByte ts).map fun d => .one (.ckAdd d)
  else if name = "CK_END".toList then withoutOperand .ckEnd ts
  else if name = "BCD_INIT".toList then withoutOperand .bcdInit ts
  else if name = "BCD_BYTE".toList then (parseByte ts).map fun d => .one (.bcdByte d)
  else if name = ".word".toList then (parseWord ts).map .word
  else if name = "CK_FRAME".toList then (parseFrameOperand ts).map .frame
  else if name = "BCD_DECODE".toList then (parseBytes ts).map .field
  else none

/-- The tokens of a line before its comment, which begins with `;` (R48), without blanks at the ends. -/
def statementTokens (line : List Char) : List Token :=
  trimTokens ((lexLine line).takeWhile fun t => t != .ch ';')

/-- One line of assembly: one command, mnemonic first (R48). A line with nothing before its comment, an empty line among
them, is accepted and stands for no word: DESIGN CHOICE, R48 is silent on it (log 14). -/
def parseLine (line : List Char) : Option AsmLine :=
  if statementTokens line = [] then some .blank
  else
    (charsOf ((statementTokens line).takeWhile fun t => !isBlankToken t)).bind fun name =>
      parseStatement name (trimTokens ((statementTokens line).dropWhile fun t => !isBlankToken t))

/-- The words of one line. -/
def assembleLine (line : List Char) : Option (List CmdWord) := (parseLine line).map expandLine

/-- The words of a text, one command per line (R48). One line that does not parse rejects the whole text: DESIGN CHOICE,
the spec is silent on it (log 14). A line feed at the end leaves an empty last line, which stands for no word (log 14). -/
def assemble (text : List Char) : Option (List CmdWord) :=
  ((splitOnSep '\n' text).mapM assembleLine).map List.flatten

/-! ## Writing text (R51) -/

/-- A hex digit, in capitals. -/
def hexChar (n : Nat) : Char := if n < 10 then Char.ofNat (48 + n) else Char.ofNat (55 + n)

/-- `0x` and a byte in two hex digits. -/
def byteText (b : Byte) : List Char := ['0', 'x', hexChar (b.toNat / 16), hexChar (b.toNat % 16)]

/-- `.word 0xWWW`. -/
def wordText (w : CmdWord) : List Char :=
  ".word 0x".toList ++ [hexChar (w.toNat / 256), hexChar (w.toNat / 16 % 16), hexChar (w.toNat % 16)]

/-- The disassembly of a word (R51). -/
def disassemble (w : CmdWord) : List Char :=
  match decode w with
  | .nop => "NOP".toList
  | .ckInit => "CK_INIT".toList
  | .ckAdd d => "CK_ADD ".toList ++ byteText d
  | .ckEnd => "CK_END".toList
  | .bcdInit => "BCD_INIT".toList
  | .bcdByte d => "BCD_BYTE ".toList ++ byteText d
  | .reservedLow _ => wordText w
  | .reservedHigh _ => wordText w

/-- Data bytes as operands, separated by a comma and a space. -/
def operandsText : List Byte → List Char
  | [] => []
  | [b] => byteText b
  | b :: c :: bs => byteText b ++ [',', ' '] ++ operandsText (c :: bs)

/-- The canonical word that the text of `w` stands for: a reserved word is written with `.word` as it is, a command
without operand with `data = 0x00` (R51). -/
def canonicalWord (w : CmdWord) : CmdWord := if isReservedWord w then w else encode (decode w)

end Sys2Proof.Machine
end

