-- ==== Sys2Proof/Machine/Outputs.lean ====
section
/-! DEFINITION. What can be seen of the block: the two continuous outputs (10_state.md R20), the optional digit outputs
(R22), and the outputs of a run (40_checksum.md R55, 41_bcd.md R69, 70_reset_and_hazards.md R100). -/

namespace Sys2Proof.Machine

/-- The continuous output `ck_sum` (R20). -/
def ckSum (s : State) : Byte := s.acc

/-- The continuous output `bcd_term` (R20). -/
def bcdTerm (s : State) : Bool := s.term

/-- The character of a digit, `0x30 + zext_8(n)` (00_scope.md R12). Above 9 it is no decimal-digit character (R22). -/
def digitChar (n : Nibble) : Byte := 0x30#8 + n.setWidth 8

/-- The optional output `dg0_char` (R22). -/
def dg0Char (r : Resp) : Byte := digitChar r.dg0

/-- The optional output `dg1_char` (R22). -/
def dg1Char (r : Resp) : Byte := digitChar r.dg1

/-- The optional output `dg0_ok` (R22). -/
def dg0Ok (r : Resp) : Bool := decide (r.dg0.toNat ≤ 9)

/-- The optional output `dg1_ok` (R22). -/
def dg1Ok (r : Resp) : Bool := decide (r.dg1.toNat ≤ 9)

/-- The frame output: the `fo_byte` of every response with `fo_valid = 1`, in order (40_checksum.md R55). -/
def frameOutput (rs : List Resp) : List Byte := (rs.filter (·.foValid)).map (·.foByte)

/-- The `fo_last` marks of the frame output, byte for byte (40_checksum.md R55). -/
def frameMarks (rs : List Resp) : List Bool := (rs.filter (·.foValid)).map (·.foLast)

/-- The digit output: the concatenation of the emitted digits (41_bcd.md R69). -/
def digitOutput (rs : List Resp) : List Nibble := rs.flatMap respDigits

/-- The result of a run (70_reset_and_hazards.md R100). -/
structure RunResult where
  responses : List Resp
  finalAcc : Byte
  finalTerm : Bool
  frameBytes : List Byte
  digits : List Nibble
deriving DecidableEq, Repr

/-- The result of the run that ends in `s`, where `earlier` responses had been returned before the run's reset (R100). -/
def runResult (earlier : Nat) (s : State) : RunResult where
  responses := s.responses.drop earlier
  finalAcc := s.acc
  finalTerm := s.term
  frameBytes := frameOutput (s.responses.drop earlier)
  digits := digitOutput (s.responses.drop earlier)

end Sys2Proof.Machine
end

