-- ==== Sys2Proof/Machine/Transaction.lean ====
section
/-! DEFINITION. The block by itself, at the spec's transaction level: the one function `step : State × Cmd → State × Resp`
of 00_scope.md R7, over the two-field state of 10_state.md R19. -/

namespace Sys2Proof.Machine

/-- The function `step` of R7: the block's new state and its response, from ACC, TERM and the command alone (R19). -/
def blockStep (i : Instr) (b : Block) : Block × Resp :=
  match i with
  | .nop => cmdNop b
  | .ckInit => cmdCkInit b
  | .ckAdd d => cmdCkAdd d b
  | .ckEnd => cmdCkEnd b
  | .bcdInit => cmdBcdInit b
  | .bcdByte d => cmdBcdByte d b
  | .reservedLow _ => cmdReserved b
  | .reservedHigh _ => cmdReserved b

/-- `step` applied to accepted words in order (R7, 20_memory.md R33): the block's final state and one response per word. -/
def blockRun : List CmdWord → Block → Block × List Resp
  | [], b => (b, [])
  | w :: ws, b =>
    ((blockRun ws (blockStep (decode w) b).1).1, (blockStep (decode w) b).2 :: (blockRun ws (blockStep (decode w) b).1).2)

end Sys2Proof.Machine
end

