-- ==== Sys2Proof/Safety.lean ====
section
/-! DEFINITION. What counts as a sound response and as a run in which the host keeps to its duties
(70_reset_and_hazards.md R94 to R97), in the terms the statements use. -/

namespace Sys2Proof.Machine

/-! ## Runs -/

/-- The run in which the host presents `ws` and the block takes one step for each (70_reset_and_hazards.md R100). -/
def runWords (ws : List CmdWord) (s : State) : Host.Outcome State Fault Refusal :=
  Host.Core.run Sys2Proof.core ws.length (present ws s)

/-- The run of commands, each presented as its canonical word (30_encoding.md R49, R50). -/
def runCommands (is : List Instr) (s : State) : Host.Outcome State Fault Refusal := runWords (is.map encode) s

/-! ## Sound responses -/

/-- A response that the rules allow: fields that carry nothing are zero and ILLEGAL and DISCARDED carry nothing
(10_state.md R21, 60_exceptions.md R84); a terminator is never emitted (41_bcd.md R66); the status is BAD_NIBBLE exactly
when an emitted digit is above 9 (R68); no command emits a frame byte and a digit (40_checksum.md R53, 41_bcd.md R64). -/
def soundResp (r : Resp) : Bool :=
  (r.foValid || (r.foByte == 0x00#8 && !r.foLast)) &&
  (decide (r.dgCount ≠ 0) || r.dg0 == 0x0#4) &&
  (decide (r.dgCount = 2) || r.dg1 == 0x0#4) &&
  (respDigits r).all (fun n => !isTerminator n) &&
  ((r.status == .badNibble) == (respDigits r).any aboveNine) &&
  (!(r.status == .illegal || r.status == .discarded) || (!r.foValid && decide (r.dgCount = 0))) &&
  (!r.foValid || decide (r.dgCount = 0))

/-- Every response returned so far is sound. -/
def allSound (s : State) : Prop := s.responses.all soundResp = true

/-! ## Errors of a run -/

/-- Did some response report an error? Status is not sticky, so the host must combine the statuses of every response
itself (60_exceptions.md R85). -/
def errorSeen (rs : List Resp) : Bool := rs.any fun r => r.status != .ok

/-- Did some response report a bad nibble (41_bcd.md R68, R69)? -/
def badNibbleSeen (rs : List Resp) : Bool := rs.any fun r => r.status == .badNibble

/-! ## Which commands write what (10_state.md R24) -/

/-- A command of unit CKG. -/
def isCkg : Instr → Bool
  | .nop => false
  | .ckInit => true
  | .ckAdd _ => true
  | .ckEnd => true
  | .bcdInit => false
  | .bcdByte _ => false
  | .reservedLow _ => false
  | .reservedHigh _ => false

/-- A command of unit BCD. -/
def isBcd : Instr → Bool
  | .nop => false
  | .ckInit => false
  | .ckAdd _ => false
  | .ckEnd => false
  | .bcdInit => true
  | .bcdByte _ => true
  | .reservedLow _ => false
  | .reservedHigh _ => false

/-- The bytes absorbed since the last `CK_INIT`: those in `sofar` when the stream begins, and those of the stream
(10_state.md R17). -/
def absorbed : List Byte → List Instr → List Byte
  | sofar, [] => sofar
  | _, .ckInit :: is => absorbed [] is
  | sofar, .ckAdd d :: is => absorbed (sofar ++ [d]) is
  | sofar, .nop :: is => absorbed sofar is
  | sofar, .ckEnd :: is => absorbed sofar is
  | sofar, .bcdInit :: is => absorbed sofar is
  | sofar, .bcdByte _ :: is => absorbed sofar is
  | sofar, .reservedLow _ :: is => absorbed sofar is
  | sofar, .reservedHigh _ :: is => absorbed sofar is

/-- The BCD fields of a stream: the bytes of its `BCD_BYTE` commands, cut at every `BCD_INIT`; `sofar` are the bytes of
the field in progress when the stream begins (70_reset_and_hazards.md R97). The last field is the one in progress. -/
def bcdFields : List Byte → List Instr → List (List Byte)
  | sofar, [] => [sofar]
  | sofar, .bcdInit :: is => sofar :: bcdFields [] is
  | sofar, .bcdByte d :: is => bcdFields (sofar ++ [d]) is
  | sofar, .nop :: is => bcdFields sofar is
  | sofar, .ckInit :: is => bcdFields sofar is
  | sofar, .ckAdd _ :: is => bcdFields sofar is
  | sofar, .ckEnd :: is => bcdFields sofar is
  | sofar, .reservedLow _ :: is => bcdFields sofar is
  | sofar, .reservedHigh _ :: is => bcdFields sofar is

/-! ## Frames (R95, R96) -/

/-- Does the host keep the frame rules? Every frame begins with `CK_INIT` (R95; `isOpen` says that one has begun, as it
has right after reset), has one `CK_END`, and no `CK_ADD` comes between `CK_END` and `CK_INIT` (R96). -/
def framesKept : Bool → List Instr → Bool
  | _, [] => true
  | _, .ckInit :: is => framesKept true is
  | isOpen, .ckAdd _ :: is => isOpen && framesKept true is
  | isOpen, .ckEnd :: is => isOpen && framesKept false is
  | isOpen, .nop :: is => framesKept isOpen is
  | isOpen, .bcdInit :: is => framesKept isOpen is
  | isOpen, .bcdByte _ :: is => framesKept isOpen is
  | isOpen, .reservedLow _ :: is => framesKept isOpen is
  | isOpen, .reservedHigh _ :: is => framesKept isOpen is

/-- The frames a host collects: it starts anew at `CK_INIT` and ends a frame at a response with `fo_last = 1`
(R95, R96). `buf` is what it has of the frame in progress. -/
def collectFrames : List Byte → List (Instr × Resp) → List (List Byte)
  | _, [] => []
  | buf, (i, r) :: rest =>
    if i = .ckInit then collectFrames [] rest
    else if r.foValid then
      if r.foLast then (buf ++ [r.foByte]) :: collectFrames [] rest
      else collectFrames (buf ++ [r.foByte]) rest
    else collectFrames buf rest

/-- A frame whose last byte is the checksum of all the bytes before it (40_checksum.md R57). -/
def frameChecks (f : List Byte) : Prop := ∃ p : List Byte, f = p ++ [cksum p]

end Sys2Proof.Machine
end

