-- ==== Sys2Proof/Certificates/Slice0/Obligations.lean ====
section
/-! DEFINITION. The statements for the provers. A response is written ⟨status, fo_valid, fo_byte, fo_last, dg_count, dg0,
dg1⟩, in the order of 10_state.md R21. Most statements take reset as released; those about the reset input say so. That a
response is returned is said by its being appended to `State.responses`, the model's list of what has been returned (log 2). -/

open Sys2Proof Sys2Proof.Machine

/-! ## One command -/

/-- 42_control.md R74: the words of `NOP`, and that it changes nothing and returns the default response. -/
def Obligations.NopPerformsNothing : Prop :=
  (∀ w : CmdWord, decode w = .nop ↔ w &&& 0xF00#12 = 0x000#12) ∧ encode .nop = 0x000#12 ∧
  ∀ s : State, exec .nop s = .next { s with responses := s.responses ++ [⟨.ok, false, 0x00#8, false, 0, 0x0#4, 0x0#4⟩] }

/-- 40_checksum.md R52: the words of `CK_INIT`, and that it clears ACC, returns OK and is idempotent. -/
def Obligations.CkInitClearsAcc : Prop :=
  (∀ w : CmdWord, decode w = .ckInit ↔ w &&& 0xF00#12 = 0x100#12) ∧ encode .ckInit = 0x100#12 ∧
  ∀ s : State, exec .ckInit s =
    .next { s with acc := 0x00#8, responses := s.responses ++ [⟨.ok, false, 0x00#8, false, 0, 0x0#4, 0x0#4⟩] }

/-- 40_checksum.md R53: the words of `CK_ADD d`, the 8-bit wrap-around add, and the byte passed to the frame output. -/
def Obligations.CkAddAbsorbsAndEmitsByte : Prop :=
  (∀ w : CmdWord, w &&& 0xF00#12 = 0x200#12 → decode w = .ckAdd (w.setWidth 8)) ∧
  (∀ (w : CmdWord) (d : Byte), decode w = .ckAdd d → w &&& 0xF00#12 = 0x200#12) ∧
  (∀ d : Byte, encode (.ckAdd d) = 0x200#12 ||| d.setWidth 12) ∧
  ∀ (d : Byte) (s : State), exec (.ckAdd d) s =
    .next { s with acc := s.acc + d, responses := s.responses ++ [⟨.ok, true, d, false, 0, 0x0#4, 0x0#4⟩] }

/-- 40_checksum.md R54: the words of `CK_END`, and that it emits ACC as the frame's last byte and leaves ACC unchanged. -/
def Obligations.CkEndEmitsAcc : Prop :=
  (∀ w : CmdWord, decode w = .ckEnd ↔ w &&& 0xF00#12 = 0x300#12) ∧ encode .ckEnd = 0x300#12 ∧
  ∀ s : State, exec .ckEnd s = .next { s with responses := s.responses ++ [⟨.ok, true, s.acc, true, 0, 0x0#4, 0x0#4⟩] }

/-- 41_bcd.md R63: the words of `BCD_INIT`, that it clears TERM and leaves ACC unchanged, and that no other command clears
TERM. -/
def Obligations.BcdInitClearsTerm : Prop :=
  (∀ w : CmdWord, decode w = .bcdInit ↔ w &&& 0xF00#12 = 0x400#12) ∧ encode .bcdInit = 0x400#12 ∧
  (∀ s : State, exec .bcdInit s =
    .next { s with term := false, responses := s.responses ++ [⟨.ok, false, 0x00#8, false, 0, 0x0#4, 0x0#4⟩] }) ∧
  ∀ (i : Instr) (s : State), i ≠ .bcdInit → s.term = true → ∃ t, exec i s = .next t ∧ t.term = true

/-- 41_bcd.md R64: the words of `BCD_BYTE d`, and its pseudocode: discarded while TERM = 1, otherwise the nibbles are
taken high then low up to a terminator, which sets TERM. -/
def Obligations.BcdByteDecodesNibbles : Prop :=
  (∀ w : CmdWord, w &&& 0xF00#12 = 0x500#12 → decode w = .bcdByte (w.setWidth 8)) ∧
  (∀ (w : CmdWord) (d : Byte), decode w = .bcdByte d → w &&& 0xF00#12 = 0x500#12) ∧
  (∀ d : Byte, encode (.bcdByte d) = 0x500#12 ||| d.setWidth 12) ∧
  ∀ (d : Byte) (s : State), exec (.bcdByte d) s =
    (let hi : Nibble := (d >>> 4).setWidth 4
     let lo : Nibble := d.setWidth 4
     if s.term then
       .next { s with responses := s.responses ++ [⟨.discarded, false, 0x00#8, false, 0, 0x0#4, 0x0#4⟩] }
     else if hi = 0xF#4 then
       .next { s with term := true, responses := s.responses ++ [⟨.ok, false, 0x00#8, false, 0, 0x0#4, 0x0#4⟩] }
     else if lo = 0xF#4 then
       .next { s with term := true, responses := s.responses ++
         [⟨if 9 < hi.toNat then .badNibble else .ok, false, 0x00#8, false, 1, hi, 0x0#4⟩] }
     else
       .next { s with responses := s.responses ++
         [⟨if 9 < hi.toNat ∨ 9 < lo.toNat then .badNibble else .ok, false, 0x00#8, false, 2, hi, lo⟩] })

/-- 41_bcd.md R65: the outcome table of `BCD_BYTE`, row by row (nibble classes D = 0..9, X = 0xA..0xE, F = 0xF), and the
outcome with TERM = 1 on entry. -/
def Obligations.BcdByteOutcomeTable : Prop :=
  (∀ (s : State) (hi lo : Nibble), s.term = false →
    (hi = 0xF → exec (.bcdByte (hi ++ lo)) s =
      .next { s with term := true, responses := s.responses ++ [⟨.ok, false, 0x00#8, false, 0, 0x0#4, 0x0#4⟩] }) ∧
    (hi.toNat ≤ 9 → lo.toNat ≤ 9 → exec (.bcdByte (hi ++ lo)) s =
      .next { s with responses := s.responses ++ [⟨.ok, false, 0x00#8, false, 2, hi, lo⟩] }) ∧
    (hi.toNat ≤ 9 → 10 ≤ lo.toNat → lo.toNat ≤ 14 → exec (.bcdByte (hi ++ lo)) s =
      .next { s with responses := s.responses ++ [⟨.badNibble, false, 0x00#8, false, 2, hi, lo⟩] }) ∧
    (hi.toNat ≤ 9 → lo = 0xF → exec (.bcdByte (hi ++ lo)) s =
      .next { s with term := true, responses := s.responses ++ [⟨.ok, false, 0x00#8, false, 1, hi, 0x0#4⟩] }) ∧
    (10 ≤ hi.toNat → hi.toNat ≤ 14 → lo.toNat ≤ 14 → exec (.bcdByte (hi ++ lo)) s =
      .next { s with responses := s.responses ++ [⟨.badNibble, false, 0x00#8, false, 2, hi, lo⟩] }) ∧
    (10 ≤ hi.toNat → hi.toNat ≤ 14 → lo = 0xF → exec (.bcdByte (hi ++ lo)) s =
      .next { s with term := true, responses := s.responses ++ [⟨.badNibble, false, 0x00#8, false, 1, hi, 0x0#4⟩] })) ∧
  ∀ (s : State) (d : Byte), s.term = true → exec (.bcdByte d) s =
    .next { s with responses := s.responses ++ [⟨.discarded, false, 0x00#8, false, 0, 0x0#4, 0x0#4⟩] }

/-- 42_control.md R75: the words of the two reserved rows, and that a reserved word changes nothing and returns ILLEGAL. -/
def Obligations.ReservedWordsReturnIllegal : Prop :=
  (∀ w : CmdWord, (∃ op, decode w = .reservedLow op) ↔ w &&& 0xE00#12 = 0x600#12) ∧
  (∀ w : CmdWord, (∃ op, decode w = .reservedHigh op) ↔ w &&& 0x800#12 = 0x800#12) ∧
  (∀ (op : Nibble) (s : State), exec (.reservedLow op) s =
    .next { s with responses := s.responses ++ [⟨.illegal, false, 0x00#8, false, 0, 0x0#4, 0x0#4⟩] }) ∧
  (∀ (op : Nibble) (s : State), exec (.reservedHigh op) s =
    .next { s with responses := s.responses ++ [⟨.illegal, false, 0x00#8, false, 0, 0x0#4, 0x0#4⟩] })

/-- 60_exceptions.md R78: the codes of the statuses and exactly when a command returns each. -/
def Obligations.StatusCodesAndTheirCauses : Prop :=
  (statusCode .ok = 0 ∧ statusCode .illegal = 1 ∧ statusCode .discarded = 2 ∧ statusCode .badNibble = 3) ∧
  ∀ (i : Instr) (s : State), ∃ t r, exec i s = .next t ∧ t.responses = s.responses ++ [r] ∧
    (r.status = .illegal ↔ ∃ op, i = .reservedLow op ∨ i = .reservedHigh op) ∧
    (r.status = .discarded ↔ s.term = true ∧ ∃ d, i = .bcdByte d) ∧
    (r.status = .badNibble ↔ s.term = false ∧ ∃ d, i = .bcdByte d ∧
      ((10 ≤ d.toNat / 16 ∧ d.toNat / 16 ≤ 14) ∨
        (d.toNat / 16 ≤ 14 ∧ 10 ≤ d.toNat % 16 ∧ d.toNat % 16 ≤ 14)))

/-- 60_exceptions.md R80: the one status of a word, by priority: ILLEGAL from `op` alone, then DISCARDED from TERM, then
BAD_NIBBLE from the emitted nibbles. -/
def Obligations.StatusPriority : Prop :=
  ∀ (w : CmdWord) (s : State), ∃ t r, exec (decode w) s = .next t ∧ t.responses = s.responses ++ [r] ∧
    r.status =
      if 6 ≤ w.toNat / 256 then .illegal
      else if w.toNat / 256 = 5 ∧ s.term = true then .discarded
      else if w.toNat / 256 = 5 ∧ w.toNat / 16 % 16 ≠ 15 ∧
          (10 ≤ w.toNat / 16 % 16 ∨ (10 ≤ w.toNat % 16 ∧ w.toNat % 16 ≠ 15)) then .badNibble
      else .ok

/-- 10_state.md R24: no CKG command reads or writes TERM, no BCD command reads or writes ACC, and `NOP` and reserved
commands read and write neither. -/
def Obligations.UnitsAreIndependent : Prop :=
  (∀ i : Instr, isCkg i = true → ∀ (s : State) (b : Bool), ∃ t, exec i s = .next t ∧ t.term = s.term ∧
    exec i { s with term := b } = .next { t with term := b }) ∧
  (∀ i : Instr, isBcd i = true → ∀ (s : State) (a : Byte), ∃ t, exec i s = .next t ∧ t.acc = s.acc ∧
    exec i { s with acc := a } = .next { t with acc := a }) ∧
  (∀ i : Instr, isCkg i = false → isBcd i = false → ∀ (s : State) (a : Byte) (b : Bool), ∃ t,
    exec i s = .next t ∧ t.acc = s.acc ∧ t.term = s.term ∧
    exec i { s with acc := a, term := b } = .next { t with acc := a, term := b })

/-- 20_memory.md R30: repeating an idempotent command gives the same state and the same response, and `CK_ADD` changes
ACC at each repetition unless `d = 0x00`. -/
def Obligations.IdempotentCommandsRepeat : Prop :=
  (∀ i : Instr, (∀ d, i ≠ .ckAdd d) → (∀ d, i ≠ .bcdByte d) → ∀ s : State, ∃ t r, exec i s = .next t ∧
    t.responses = s.responses ++ [r] ∧ exec i t = .next { t with responses := t.responses ++ [r] }) ∧
  (∀ (d : Byte) (s : State), ∃ t, exec (.ckAdd d) s = .next t ∧ (t.acc = s.acc ↔ d = 0x00))

/-- 10_state.md R22: the digit characters, `0x30` plus the digit, and the marks of the digits up to 9. -/
def Obligations.DigitCharacters : Prop :=
  ∀ r : Resp, (dg0Char r).toNat = 0x30 + r.dg0.toNat ∧ (dg1Char r).toNat = 0x30 + r.dg1.toNat ∧
    (dg0Ok r = true ↔ r.dg0.toNat ≤ 9) ∧ (dg1Ok r = true ↔ r.dg1.toNat ≤ 9)

/-! ## Encoding -/

/-- 30_encoding.md R42 to R44 and R46: decoding the word of a well-formed command gives the command back; every word
decodes to a well-formed command; encoding what was decoded gives the word back exactly on the words that carry nothing
in an ignored field. That a reserved command is encoded with data 0x00 is the model's choice (log 12), and so is what the
last clause says of reserved words; as text a reserved word reassembles as itself (R51, `DisassemblyReassembles`). -/
def Obligations.DecodeAndEncodeAgree : Prop :=
  (∀ i : Instr, i.wellFormed = true → decode (encode i) = i) ∧
  (∀ w : CmdWord, (decode w).wellFormed = true) ∧
  (∀ w : CmdWord, encode (decode w) = w ↔ w.toNat / 256 = 2 ∨ w.toNat / 256 = 5 ∨ w.toNat % 256 = 0)

/-- 30_encoding.md R42 and R43: each word is covered by exactly one row of the opcode table, the row of the command it
decodes to. -/
def Obligations.EachWordHasExactlyOneTableRow : Prop :=
  ∀ (w : CmdWord) (k : Nat) (row : OpcodeRow), opcodeTable[k]? = some row →
    (row.covers w = true ↔ k = rowIndex (decode w))

/-- 30_encoding.md R46: 1536 words are defined and 2560 are reserved. -/
def Obligations.DefinedAndReservedWordCounts : Prop :=
  ((List.range 4096).filter fun n => !isReservedWord (BitVec.ofNat 12 n)).length = 1536 ∧
  ((List.range 4096).filter fun n => isReservedWord (BitVec.ofNat 12 n)).length = 2560

/-- 30_encoding.md R44: for `NOP`, `CK_INIT`, `CK_END` and `BCD_INIT` every value of `data` gives the same command, and
the canonical spelling has `data = 0x00`. -/
def Obligations.IgnoredDataChangesNothing : Prop :=
  ∀ (op : Nibble) (d : Byte), op = 0x0 ∨ op = 0x1 ∨ op = 0x3 ∨ op = 0x4 →
    decode (packWord op d) = decode (packWord op 0x00) ∧ encode (decode (packWord op d)) = packWord op 0x00

/-- Decoding vectors of 95_test_vectors.md section 2.3, for 30_encoding.md R46. -/
def Obligations.DecodingVectors : Prop :=
  decode 0x000 = .nop ∧ decode 0x1A5 = .ckInit ∧ decode 0x2C3 = .ckAdd 0xC3 ∧ decode 0x300 = .ckEnd ∧
  decode 0x4FF = .bcdInit ∧ decode 0x512 = .bcdByte 0x12 ∧ decode 0x5FF = .bcdByte 0xFF ∧
  decode 0x6FF = .reservedLow 0x6 ∧ decode 0x7AB = .reservedLow 0x7 ∧ decode 0x841 = .reservedHigh 0x8 ∧
  decode 0xFFF = .reservedHigh 0xF

/-- The model's reading of 20_memory.md R32 (log 10): a value wider than a command word is rejected by name, and every
other value decodes as its word. -/
def Obligations.WiderValuesAreRejected : Prop :=
  ∀ v : Nat, (4096 ≤ v → decodeRaw v = .error .widerThanCommandWord) ∧
    (v < 4096 → decodeRaw v = .ok (decode (BitVec.ofNat 12 v)))

/-- 30_encoding.md R51: assembling the disassembly of a word gives its canonical word, which is the word itself exactly
on canonical words, and disassembling that gives the same text again. -/
def Obligations.DisassemblyReassembles : Prop :=
  (∀ w : CmdWord, assembleLine (disassemble w) = some [canonicalWord w]) ∧
  (∀ w : CmdWord, disassemble (canonicalWord w) = disassemble w) ∧
  (∀ w : CmdWord, canonicalWord w = w ↔
    6 ≤ w.toNat / 256 ∨ w.toNat / 256 = 2 ∨ w.toNat / 256 = 5 ∨ w.toNat % 256 = 0)

/-- 30_encoding.md R49 and R50 over their text (hex operands separated by a comma and a space; the separators are the
model's choice, log 14): a pseudo-instruction line emits the INIT word, one word for each byte, and `CK_FRAME` the
`CK_END` word. -/
def Obligations.PseudoInstructionTextExpands : Prop :=
  ∀ bs : List Byte,
    assembleLine ("CK_FRAME ".toList ++ operandsText bs) =
      some ([0x100#12] ++ bs.map (fun b => 0x200#12 ||| b.setWidth 12) ++ [0x300#12]) ∧
    assembleLine ("BCD_DECODE ".toList ++ operandsText bs) =
      some ([0x400#12] ++ bs.map (fun b => 0x500#12 ||| b.setWidth 12))

/-! ## Steps and runs -/

/-- A step runs the decoded command: with reset released and a word presented, the step is `exec` of the command the word
decodes to, at the state in which the word has been taken from the port (00_scope.md R7, 30_encoding.md R39). -/
def Obligations.StepPerformsDecodedCommand : Prop :=
  ∀ (s : State) (w : CmdWord) (i : Instr) (rest : List HostAction), s.resetIn = false →
    s.port = .command w :: rest → decode w = i → step s = exec i { s with port := rest }

/-- With nothing presented a step changes nothing (the model's choice, log 3; 70_reset_and_hazards.md R100: it "never stops
on its own"). -/
def Obligations.IdleStepChangesNothing : Prop := ∀ s : State, s.port = [] → step s = .next s

/-- No state stops the machine: every step, and every run of any length, answers a next state (60_exceptions.md R81,
70_reset_and_hazards.md R100). -/
def Obligations.NoRunEverStops : Prop := ∀ (n : Nat) (s : State), ∃ t, Host.Core.run Sys2Proof.core n s = .next t

/-- 30_encoding.md R39 and 20_memory.md R33: a stream gets one response per word, in acceptance order, and a stream in two
parts is its first part and then its second on the state the first left. -/
def Obligations.StreamsComposeWithOneResponsePerWord : Prop :=
  ∀ (s : State) (ws vs : List CmdWord), s.resetIn = false → ∃ t u rs qs,
    runWords ws s = .next t ∧ runWords vs t = .next u ∧ runWords (ws ++ vs) s = .next u ∧
    t.responses = s.responses ++ rs ∧ rs.length = ws.length ∧
    u.responses = s.responses ++ rs ++ qs ∧ qs.length = vs.length

/-- 10_state.md R19: the responses to a stream depend only on ACC, TERM and the words; whatever else two states differ
in, they answer alike and end with the same ACC and TERM. -/
def Obligations.ResponsesDependOnlyOnAccTermAndWords : Prop :=
  ∀ (s s' : State) (ws : List CmdWord), s.resetIn = false → s'.resetIn = false → s.acc = s'.acc → s.term = s'.term →
    ∃ t t' rs, runWords ws s = .next t ∧ runWords ws s' = .next t' ∧ t.acc = t'.acc ∧ t.term = t'.term ∧
      t.responses = s.responses ++ rs ∧ t'.responses = s'.responses ++ rs

/-- 10_state.md R24 over streams: the responses of a unit's commands in an interleaved stream, and that unit's final state,
are those of the unit's commands alone. -/
def Obligations.InterleavingIsInvisibleToEachUnit : Prop :=
  ∀ (s : State) (ws : List CmdWord), s.resetIn = false → ∃ t rs, runWords ws s = .next t ∧
    t.responses = s.responses ++ rs ∧
    (∃ u, runWords (ws.filter fun w => isCkg (decode w)) s = .next u ∧ u.acc = t.acc ∧
      u.responses = s.responses ++ (((ws.map decode).zip rs).filter fun p => isCkg p.1).map Prod.snd) ∧
    (∃ u, runWords (ws.filter fun w => isBcd (decode w)) s = .next u ∧ u.term = t.term ∧
      u.responses = s.responses ++ (((ws.map decode).zip rs).filter fun p => isBcd p.1).map Prod.snd)

/-- 42_control.md R75 and 60_exceptions.md R82 over streams: reserved words leave no trace; without them the other words
get the same responses and the state ends the same. -/
def Obligations.ReservedWordsLeaveNoTrace : Prop :=
  ∀ (s : State) (ws : List CmdWord), s.resetIn = false → ∃ t u rs, runWords ws s = .next t ∧
    runWords (ws.filter fun w => !isReservedWord w) s = .next u ∧ u.acc = t.acc ∧ u.term = t.term ∧
    t.responses = s.responses ++ rs ∧
    u.responses = s.responses ++ ((ws.zip rs).filter fun p => !isReservedWord p.1).map Prod.snd

/-! ## Reset -/

/-- 70_reset_and_hazards.md R92: the reset values of ACC, TERM, `ck_sum` and `bcd_term`. The last clause speaks of the
model's own list of the responses returned so far, which begins empty (log 2). -/
def Obligations.ResetValues : Prop :=
  State.reset.acc = 0x00 ∧ State.reset.term = false ∧ ckSum State.reset = 0x00 ∧ bcdTerm State.reset = false ∧
  State.reset.responses = []

/-- 70_reset_and_hazards.md R91 with both values of `RESET_INFLIGHT`: the host asserts reset while the words `fl` are in
flight, presents the words `ws` while it is asserted, and releases it. Then ACC and TERM hold their reset values, the words
presented meanwhile got no response (log 4), and the words in flight either all completed with their responses or did not
happen (log 5, log 6). That the responses returned before stay in the list is the model's choice (log 2). -/
def Obligations.ResetEpisode : Prop :=
  ∀ (s : State) (fl ws : List CmdWord) (rest : List HostAction), s.resetIn = false → ∃ t,
    Host.Core.run Sys2Proof.core (ws.length + 2)
      { s with port := .assertReset fl :: (ws.map HostAction.command ++ .releaseReset :: rest) } = .next t ∧
    t.acc = 0x00 ∧ t.term = false ∧ t.resetIn = false ∧ t.port = rest ∧
    (t.responses = s.responses ∨ ∃ u, runWords fl s = .next u ∧ t.responses = u.responses)

/-- 70_reset_and_hazards.md R91 and R92: the release of reset leaves ACC = 0x00 and TERM = 0. That it leaves the list of the
responses returned before as it was is the model's choice (log 2). -/
def Obligations.ReleaseRestoresResetValues : Prop :=
  ∀ (s : State) (rest : List HostAction), s.resetIn = true → s.port = .releaseReset :: rest →
    step s = .next { s with acc := 0x00#8, term := false, resetIn := false, port := rest }

/-- 70_reset_and_hazards.md R93 and R100: a run from any state that a reset left has the result of the same run from
`State.reset`, with one response per word. That a state which a reset left may hold earlier responses, which do not count,
is the model's choice (log 2). -/
def Obligations.RunAfterAnyResetMatchesRunFromReset : Prop :=
  ∀ (s : State) (ws : List CmdWord), s.resetIn = false → s.acc = 0x00 → s.term = false → ∃ t u,
    runWords ws s = .next t ∧ runWords ws State.reset = .next u ∧
    runResult s.responses.length t = runResult 0 u ∧ (runResult 0 u).responses.length = ws.length

/-- 70_reset_and_hazards.md R93: right after reset a frame needs no `CK_INIT` and a BCD field no `BCD_INIT`. -/
def Obligations.FirstFrameAndFieldNeedNoInit : Prop :=
  ∀ bs : List Byte,
    (∃ t, runCommands (bs.map Instr.ckAdd ++ [.ckEnd]) State.reset = .next t ∧
      frameOutput t.responses = bs ++ [cksum bs]) ∧
    (∃ t, runCommands (bs.map Instr.bcdByte) State.reset = .next t ∧ digitOutput t.responses = decodeBCD bs)

/-! ## The laws of CKG -/

/-- 40_checksum.md R55 and R56: `CK_FRAME bs` from any state emits the bytes and then their checksum, with `fo_last` on
the last byte only, `length + 1` bytes in all; ACC ends as the checksum and nothing else changes. -/
def Obligations.CkFrameEmitsPayloadThenChecksum : Prop :=
  ∀ (s : State) (bs : List Byte), s.resetIn = false → ∃ rs,
    runCommands (ckFrame bs) s = .next { s with acc := cksum bs, responses := s.responses ++ rs } ∧
    frameOutput rs = bs ++ [cksum bs] ∧ frameMarks rs = List.replicate bs.length false ++ [true] ∧
    (frameOutput rs).length = bs.length + 1

/-- 40_checksum.md R57: running `CK_FRAME` again over an emitted frame minus its last byte, from any state, leaves that
last byte in ACC. -/
def Obligations.RecomputingOverFrameGivesLastByte : Prop :=
  ∀ (s s' : State) (bs p : List Byte) (c : Byte) (t : State) (rs : List Resp), s.resetIn = false →
    s'.resetIn = false → runCommands (ckFrame bs) s = .next t → t.responses = s.responses ++ rs →
    frameOutput rs = p ++ [c] → ∃ u, runCommands (ckFrame p) s' = .next u ∧ u.acc = c

/-- 40_checksum.md R58: presenting the same bytes in another order after `CK_INIT` leaves the same ACC, while the frame
outputs keep their own byte orders. -/
def Obligations.ChecksumIgnoresByteOrder : Prop :=
  ∀ (s : State) (bs cs : List Byte), s.resetIn = false → bs.Perm cs → cksum bs = cksum cs ∧ ∃ t u rs qs,
    runCommands ([.ckInit] ++ bs.map Instr.ckAdd) s = .next t ∧
    runCommands ([.ckInit] ++ cs.map Instr.ckAdd) s = .next u ∧ t.acc = u.acc ∧
    t.responses = s.responses ++ rs ∧ frameOutput rs = bs ∧ u.responses = s.responses ++ qs ∧ frameOutput qs = cs

/-- 40_checksum.md R59: the add is modulo 256 with no saturation and no overflow indication, and the rule's three
consequences for `cksum`. -/
def Obligations.ChecksumWrapsModulo256 : Prop :=
  (∀ (d : Byte) (s : State), ∃ t r, exec (.ckAdd d) s = .next t ∧ t.acc.toNat = (s.acc.toNat + d.toNat) % 256 ∧
    t.responses = s.responses ++ [r] ∧ r.status = .ok) ∧
  (∀ bs : List Byte, cksum (bs ++ [0x00]) = cksum bs) ∧
  (∀ b : Byte, cksum (List.replicate 256 b) = 0x00) ∧
  (∀ b : Byte, cksum [b, BitVec.ofNat 8 ((256 - b.toNat) % 256)] = 0x00)

/-- 40_checksum.md R60: the split law of `cksum`, and that commands which do not write ACC may stand anywhere between the
`CK_ADD` commands: the stream leaves the ACC of its `CK_ADD` words alone. -/
def Obligations.FrameMayBeAbsorbedInParts : Prop :=
  (∀ xs ys : List Byte, (cksum (xs ++ ys)).toNat = ((cksum xs).toNat + (cksum ys).toNat) % 256) ∧
  (∀ (s : State) (ws : List CmdWord), s.resetIn = false → (∀ w ∈ ws, decode w ≠ .ckInit) → ∃ t u,
    runWords ws s = .next t ∧ runWords (ws.filter fun w => w &&& 0xF00#12 == 0x200#12) s = .next u ∧ t.acc = u.acc)

/-- 10_state.md R17: after any stream of words ACC is the checksum of every byte absorbed by `CK_ADD` since the last
`CK_INIT`; `sofar` are those absorbed before the stream. -/
def Obligations.AccIsChecksumOfBytesSinceLastInit : Prop :=
  ∀ (s : State) (ws : List CmdWord) (sofar : List Byte), s.resetIn = false → s.acc = cksum sofar → ∃ t,
    runWords ws s = .next t ∧ t.acc = cksum (absorbed sofar (ws.map decode))

/-- 40_checksum.md R61: k consecutive `CK_END` commands emit the current ACC k times, each with `fo_last = 1`. -/
def Obligations.RepeatedCkEndRepeatsChecksum : Prop :=
  ∀ (s : State) (k : Nat), s.resetIn = false → runCommands (List.replicate k .ckEnd) s =
    .next { s with responses := s.responses ++ List.replicate k ⟨.ok, true, s.acc, true, 0, 0x0#4, 0x0#4⟩ }

/-- 40_checksum.md R62: bytes added after `CK_END` without `CK_INIT` continue the old sum, and the next `CK_END` emits the
checksum of both byte sequences together. -/
def Obligations.FrameWithoutInitContinuesOldSum : Prop :=
  ∀ (s : State) (bs cs : List Byte), s.resetIn = false → ∃ t,
    runCommands (ckFrame bs ++ cs.map Instr.ckAdd ++ [.ckEnd]) s = .next t ∧ t.acc = cksum (bs ++ cs) ∧
    t.responses.getLast? = some ⟨.ok, true, cksum (bs ++ cs), true, 0, 0x0#4, 0x0#4⟩

/-- 70_reset_and_hazards.md R95 and R96 with 40_checksum.md R57: while the host keeps the frame rules, every frame it
collects from any stream of words that begins right after reset or `CK_INIT` ends with the checksum of its other bytes,
and there is one frame for each `CK_END`. What a collected frame is follows the model's reading in log 20: a `CK_INIT`
inside a frame gives it up and the collection starts anew. -/
def Obligations.EveryFrameOfACarefulHostChecks : Prop :=
  ∀ (s : State) (ws : List CmdWord), s.resetIn = false → s.acc = 0x00 → framesKept true (ws.map decode) = true →
    ∃ t rs, runWords ws s = .next t ∧ t.responses = s.responses ++ rs ∧
      (∀ f ∈ collectFrames [] ((ws.map decode).zip rs), frameChecks f) ∧
      (collectFrames [] ((ws.map decode).zip rs)).length = (ws.map decode).count .ckEnd

/-! ## The laws of BCD -/

/-- 41_bcd.md R69: `BCD_DECODE bs` from any state emits the digits of `decodeBCD bs`, ends with TERM = 1 exactly when some
nibble is 0xF, and leaves ACC unchanged; without a BAD_NIBBLE response every digit is decimal. -/
def Obligations.BcdDecodeEqualsReference : Prop :=
  ∀ (s : State) (bs : List Byte), s.resetIn = false → ∃ rs,
    runCommands (bcdDecode bs) s =
      .next { s with term := decide (0xF#4 ∈ nibblesOf bs), responses := s.responses ++ rs } ∧
    digitOutput rs = decodeBCD bs ∧
    (badNibbleSeen rs = false → ∀ n ∈ digitOutput rs, n.toNat ≤ 9 ∧ (digitChar n).toNat = 0x30 + n.toNat)

/-- 41_bcd.md R70: two runs of `BCD_DECODE bs` give the same responses, whatever state each begins in. -/
def Obligations.BcdDecodeIsRestartable : Prop :=
  ∀ (s s' : State) (bs : List Byte), s.resetIn = false → s'.resetIn = false → ∃ t t' rs,
    runCommands (bcdDecode bs) s = .next t ∧ runCommands (bcdDecode bs) s' = .next t' ∧
    t.responses = s.responses ++ rs ∧ t'.responses = s'.responses ++ rs

/-- 41_bcd.md R71: the empty field emits no digit and leaves TERM = 0; a field of 0xFF bytes emits no digit and leaves
TERM = 1, its first byte answered OK and the rest DISCARDED. -/
def Obligations.EmptyAndAllTerminatorFields : Prop :=
  ∀ s : State, s.resetIn = false →
    runCommands (bcdDecode []) s =
      .next { s with term := false, responses := s.responses ++ [⟨.ok, false, 0x00#8, false, 0, 0x0#4, 0x0#4⟩] } ∧
    ∀ n : Nat, runCommands (bcdDecode (List.replicate (n + 1) 0xFF)) s =
      .next { s with term := true, responses := s.responses ++
        ([⟨.ok, false, 0x00#8, false, 0, 0x0#4, 0x0#4⟩, ⟨.ok, false, 0x00#8, false, 0, 0x0#4, 0x0#4⟩] ++
          List.replicate n ⟨.discarded, false, 0x00#8, false, 0, 0x0#4, 0x0#4⟩) }

/-- 41_bcd.md R72 with 20_memory.md R27: the digits are the nibbles, high before low, up to the first terminator; at most
two per byte, exactly two per byte if and only if there is no terminator, which is when TERM = 0 at the end; and with the
first terminator at index k, exactly k. -/
def Obligations.DigitsAreNibblesBeforeTerminator : Prop :=
  ∀ (s : State) (bs : List Byte), s.resetIn = false → ∃ t rs,
    runCommands (bcdDecode bs) s = .next t ∧ t.responses = s.responses ++ rs ∧
    digitOutput rs = (nibblesOf bs).takeWhile (fun n => n != 0xF#4) ∧
    (digitOutput rs).length ≤ 2 * bs.length ∧
    ((digitOutput rs).length = 2 * bs.length ↔ 0xF#4 ∉ nibblesOf bs) ∧
    (t.term = false ↔ 0xF#4 ∉ nibblesOf bs) ∧
    (∀ k, (nibblesOf bs)[k]? = some 0xF#4 → (∀ j < k, (nibblesOf bs)[j]? ≠ some 0xF#4) → (digitOutput rs).length = k)

/-- 41_bcd.md R73: while TERM = 1, no stream without `BCD_INIT` changes TERM or emits a digit, and every `BCD_BYTE` in it
is answered DISCARDED. -/
def Obligations.TerminationIsPermanent : Prop :=
  ∀ (s : State) (ws : List CmdWord), s.resetIn = false → s.term = true → (∀ w ∈ ws, decode w ≠ .bcdInit) → ∃ t rs,
    runWords ws s = .next t ∧ t.responses = s.responses ++ rs ∧ rs.length = ws.length ∧ t.term = true ∧
    digitOutput rs = [] ∧
    ∀ p ∈ (ws.map decode).zip rs, (∃ d, p.1 = .bcdByte d) → p.2 = ⟨.discarded, false, 0x00#8, false, 0, 0x0#4, 0x0#4⟩

/-- 10_state.md R18 and 70_reset_and_hazards.md R97: in any stream of words from TERM = 0, the digits are those of
`decodeBCD` over each BCD field in turn, and TERM ends as 1 exactly when the field in progress has met a terminator. -/
def Obligations.StreamDigitsAreTheFieldsDigits : Prop :=
  ∀ (s : State) (ws : List CmdWord), s.resetIn = false → s.term = false → ∃ t rs,
    runWords ws s = .next t ∧ t.responses = s.responses ++ rs ∧
    digitOutput rs = (bcdFields [] (ws.map decode)).flatMap decodeBCD ∧
    (t.term = true ↔ ∃ f, (bcdFields [] (ws.map decode)).getLast? = some f ∧ 0xF#4 ∈ nibblesOf f)

/-! ## The invariants -/

/-- Every step keeps every returned response sound, from every state: the rules of 10_state.md R21 and
60_exceptions.md R84 on what a response carries, over the model's list of the responses returned (log 2). -/
def Obligations.StepKeepsResponsesSound : Prop := ∀ s t : State, allSound s → step s = .next t → allSound t

/-- The responses at reset are sound: the model's list of them begins empty (log 2). -/
def Obligations.ResetResponsesAreSound : Prop := allSound State.reset

/-- 00_scope.md R7 and 10_state.md R19: every command is the block's own function `step : State × Cmd → State × Resp`, over
the state that is exactly ACC and TERM: from every state exec replaces the block's state by that function's, appends its
response, and leaves the block's surroundings alone (log 1, log 2). -/
def Obligations.ExecIsTheBlockStep : Prop :=
  ∀ (i : Instr) (s : State), exec i s = .next { s with
    toBlock := (blockStep i s.toBlock).1, responses := s.responses ++ [(blockStep i s.toBlock).2] }

/-- 00_scope.md R7 and 20_memory.md R33: the machine is observably equal to the block's own function applied to the words in
the order they were accepted: the run of any stream leaves the block in the state that `blockRun` gives and returns exactly
its responses, one per word, and leaves the block's surroundings alone (log 1, log 2). -/
def Obligations.MachineRefinesTheBlock : Prop :=
  ∀ (s : State) (ws : List CmdWord), s.resetIn = false →
    runWords ws s = .next { s with
      toBlock := (blockRun ws s.toBlock).1, responses := s.responses ++ (blockRun ws s.toBlock).2 } ∧
    (blockRun ws s.toBlock).2.length = ws.length

/-- 10_state.md R19 as an invariant of one step: two states that agree on ACC, TERM, the reset input and what the host does
next still agree on all of these after the step, and the step returns the same responses to both, whatever was returned
before. The steps of the reset input are included, and there the statement rests on the model's choices and not on R19:
`RESET_INFLIGHT`, which 00_scope.md R6 and 70_reset_and_hazards.md R91 leave open, is one constant, the same at every reset
(log 5); a performed word in flight has returned its response (log 6); and whether ACC and TERM clear at the assertion or
only at the release is one constant too (log 7). It holds for every value of these constants. -/
def Obligations.StepKeepsAgreementOnAccAndTerm : Prop :=
  ∀ s s' t t' : State, s.acc = s'.acc → s.term = s'.term → s.resetIn = s'.resetIn → s.port = s'.port →
    step s = .next t → step s' = .next t' →
    t.acc = t'.acc ∧ t.term = t'.term ∧ t.resetIn = t'.resetIn ∧ t.port = t'.port ∧
    ∃ rs, t.responses = s.responses ++ rs ∧ t'.responses = s'.responses ++ rs
end

