-- ==== Sys2Proof/Laws/Assembler.lean ====
section
/-! SUPPORT. How the assembler reads plain text: without an apostrophe nothing is quoted, a separator cuts, and blanks at
the ends are dropped. -/

namespace Sys2Proof.Machine

/-- Text without an apostrophe has no quoted character. -/
theorem lexLine_plain (cs : List Char) (h : ∀ c ∈ cs, c ≠ '\'') : lexLine cs = cs.map .ch := by
  induction cs using lexLine.induct with
  | case1 a x b t hc ih => exact absurd hc.1 (h a (by simp))
  | case2 a x b t hc ih =>
    rw [lexLine, if_neg hc, ih (fun c hc => h c (by simp_all))]
    rfl
  | case3 a x => rfl
  | case4 a => rfl
  | case5 => rfl

/-- Plain tokens are their characters. -/
@[simp] theorem charsOf_map_ch (cs : List Char) : charsOf (cs.map .ch) = some cs := by
  induction cs with
  | nil => rfl
  | cons c cs ih => unfold charsOf at *; simp [ih]

/-- A list without the separator is one piece. -/
theorem splitOnSep_none {α : Type} [DecidableEq α] (sep : α) (xs : List α) (h : ∀ x ∈ xs, x ≠ sep) :
    splitOnSep sep xs = [xs] := by
  induction xs with
  | nil => rfl
  | cons x xs ih => simp [splitOnSep, h x (by simp), ih (fun y hy => h y (by simp [hy]))]

/-- The first separator ends the first piece. -/
theorem splitOnSep_append {α : Type} [DecidableEq α] (sep : α) (xs ys : List α) (h : ∀ x ∈ xs, x ≠ sep) :
    splitOnSep sep (xs ++ sep :: ys) = xs :: splitOnSep sep ys := by
  induction xs with
  | nil => simp [splitOnSep]
  | cons x xs ih => simp [splitOnSep, h x (by simp), ih (fun y hy => h y (by simp [hy]))]

/-- Tokens that begin and end without a blank are not trimmed. -/
theorem trimTokens_eq_self {a b : Token} {ts us : List Token} (ha : isBlankToken a = false)
    (hb : isBlankToken b = false) (h : a :: ts = us ++ [b]) : trimTokens (a :: ts) = a :: ts := by
  unfold trimTokens
  rw [List.dropWhile_cons_of_neg (by simp [ha]), h, List.reverse_append]
  simp [List.dropWhile_cons_of_neg, hb]

/-- A leading blank is dropped. -/
theorem trimTokens_cons_blank {a : Token} (ts : List Token) (ha : isBlankToken a = true) :
    trimTokens (a :: ts) = trimTokens ts := by
  unfold trimTokens
  rw [List.dropWhile_cons_of_pos ha]

/-- A printed hex digit reads back as its value and is no character of another meaning. -/
theorem hexChar_reads_back (n : Nat) (h : n < 16) : hexValue (hexChar n) = some n ∧ hexChar n ≠ '\'' ∧
    hexChar n ≠ ';' ∧ hexChar n ≠ ' ' ∧ hexChar n ≠ '\t' ∧ hexChar n ≠ ',' ∧ hexChar n ≠ '"' := by
  revert n
  decide

end Sys2Proof.Machine
end

