-- ==== Sys2Proof/Laws/Decode.lean ====
section
/-! SUPPORT. The fields of a packed word and what the decoder reads from it (30_encoding.md R40, R46). -/

namespace Sys2Proof

/-- A bit of a packed word: a data bit below bit 8, an op bit from there on. -/
theorem packWord_getLsbD (op : Nibble) (d : Byte) (i : Nat) :
    (packWord op d).getLsbD i = if i < 8 then d.getLsbD i else op.getLsbD (i - 8) := by
  exact BitVec.getLsbD_append (x := op) (y := d) (i := i)

/-- The op field of a packed word. -/
@[simp] theorem opField_packWord (op : Nibble) (d : Byte) : opField (packWord op d) = op := by
  apply BitVec.eq_of_getLsbD_eq
  intro i hi
  rw [opField, BitVec.getLsbD_extractLsb', packWord_getLsbD]
  simp [hi]

/-- The data field of a packed word. -/
@[simp] theorem dataField_packWord (op : Nibble) (d : Byte) : dataField (packWord op d) = d := by
  apply BitVec.eq_of_getLsbD_eq
  intro i hi
  rw [dataField, BitVec.getLsbD_extractLsb', packWord_getLsbD]
  simp [hi]

/-- Every word is its two fields. -/
theorem packWord_fields (w : CmdWord) : packWord (opField w) (dataField w) = w := by
  apply BitVec.eq_of_getLsbD_eq
  intro i hi
  rw [packWord_getLsbD, opField, dataField, BitVec.getLsbD_extractLsb', BitVec.getLsbD_extractLsb']
  by_cases h : i < 8
  · simp [h]
  · have h8 : i - 8 < 4 := by omega
    have e : 8 + (i - 8) = i := by omega
    simp [h, h8, e]

/-- A packed word as a number. -/
theorem packWord_toNat (op : Nibble) (d : Byte) : (packWord op d).toNat = op.toNat * 256 + d.toNat := by
  have h : (packWord op d).toNat = op.toNat <<< 8 ||| d.toNat := BitVec.toNat_append op d
  rw [h, ← Nat.shiftLeft_add_eq_or_of_lt d.isLt, Nat.shiftLeft_eq]

/-- Masking a packed word in its op field keeps the masked op and clears the data. -/
theorem packWord_and_op (op mask : Nibble) (d : Byte) :
    packWord op d &&& packWord mask 0x00#8 = packWord (op &&& mask) 0x00#8 := by
  apply BitVec.eq_of_getLsbD_eq
  intro i hi
  simp only [BitVec.getLsbD_and, packWord_getLsbD]
  split <;> simp

end Sys2Proof
end

