-- ==== Sys2Proof/Laws/State.lean ====
section
/-! SUPPORT. One lemma per field of State or Resp for each update, so that no later proof unfolds one. -/

namespace Sys2Proof.Machine

/-! ## State updates -/

@[simp] theorem setAcc_acc (v : Byte) (b : Block) : (setAcc v b).acc = v := rfl
@[simp] theorem setAcc_term (v : Byte) (b : Block) : (setAcc v b).term = b.term := rfl

@[simp] theorem setTerm_acc (t : Bool) (b : Block) : (setTerm t b).acc = b.acc := rfl
@[simp] theorem setTerm_term (t : Bool) (b : Block) : (setTerm t b).term = t := rfl

@[simp] theorem raiseTerm_acc (m : Bool) (b : Block) : (raiseTerm m b).acc = b.acc := rfl
@[simp] theorem raiseTerm_term (m : Bool) (b : Block) : (raiseTerm m b).term = (b.term || m) := rfl

@[simp] theorem commit_toBlock (out : Block × Resp) (s : State) : (commit out s).toBlock = out.1 := rfl
@[simp] theorem commit_resetIn (out : Block × Resp) (s : State) : (commit out s).resetIn = s.resetIn := rfl
@[simp] theorem commit_port (out : Block × Resp) (s : State) : (commit out s).port = s.port := rfl
@[simp] theorem commit_responses (out : Block × Resp) (s : State) :
    (commit out s).responses = s.responses ++ [out.2] := rfl

@[simp] theorem clearUnits_toBlock (s : State) : (clearUnits s).toBlock = Block.reset := rfl
@[simp] theorem clearUnits_resetIn (s : State) : (clearUnits s).resetIn = s.resetIn := rfl
@[simp] theorem clearUnits_port (s : State) : (clearUnits s).port = s.port := rfl
@[simp] theorem clearUnits_responses (s : State) : (clearUnits s).responses = s.responses := rfl

@[simp] theorem blockReset_acc : Block.reset.acc = 0x00#8 := rfl
@[simp] theorem blockReset_term : Block.reset.term = false := rfl

@[simp] theorem raiseReset_resetIn (b : Bool) (s : State) : (raiseReset b s).resetIn = true := rfl
@[simp] theorem raiseReset_port (b : Bool) (s : State) : (raiseReset b s).port = s.port := by
  cases b <;> rfl
@[simp] theorem raiseReset_responses (b : Bool) (s : State) : (raiseReset b s).responses = s.responses := by
  cases b <;> rfl

@[simp] theorem present_acc (ws : List CmdWord) (s : State) : (present ws s).acc = s.acc := rfl
@[simp] theorem present_toBlock (ws : List CmdWord) (s : State) : (present ws s).toBlock = s.toBlock := rfl
@[simp] theorem present_term (ws : List CmdWord) (s : State) : (present ws s).term = s.term := rfl
@[simp] theorem present_resetIn (ws : List CmdWord) (s : State) : (present ws s).resetIn = s.resetIn := rfl
@[simp] theorem present_port (ws : List CmdWord) (s : State) :
    (present ws s).port = ws.map HostAction.command ++ s.port := rfl
@[simp] theorem present_responses (ws : List CmdWord) (s : State) : (present ws s).responses = s.responses := rfl

/-! ## Response updates -/

@[simp] theorem emitFrame_status (b : Byte) (l : Bool) (r : Resp) : (emitFrame b l r).status = r.status := rfl
@[simp] theorem emitFrame_foValid (b : Byte) (l : Bool) (r : Resp) : (emitFrame b l r).foValid = true := rfl
@[simp] theorem emitFrame_foByte (b : Byte) (l : Bool) (r : Resp) : (emitFrame b l r).foByte = b := rfl
@[simp] theorem emitFrame_foLast (b : Byte) (l : Bool) (r : Resp) : (emitFrame b l r).foLast = l := rfl
@[simp] theorem emitFrame_digits (b : Byte) (l : Bool) (r : Resp) : respDigits (emitFrame b l r) = respDigits r := rfl

@[simp] theorem setStatus_status (st : Status) (r : Resp) : (setStatus st r).status = st := rfl
@[simp] theorem setStatus_foValid (st : Status) (r : Resp) : (setStatus st r).foValid = r.foValid := rfl
@[simp] theorem setStatus_foByte (st : Status) (r : Resp) : (setStatus st r).foByte = r.foByte := rfl
@[simp] theorem setStatus_foLast (st : Status) (r : Resp) : (setStatus st r).foLast = r.foLast := rfl
@[simp] theorem setStatus_digits (st : Status) (r : Resp) : respDigits (setStatus st r) = respDigits r := rfl

@[simp] theorem setDigitStatus_status (r : Resp) :
    (setDigitStatus r).status = if (respDigits r).any aboveNine then .badNibble else .ok := rfl
@[simp] theorem setDigitStatus_foValid (r : Resp) : (setDigitStatus r).foValid = r.foValid := rfl
@[simp] theorem setDigitStatus_foByte (r : Resp) : (setDigitStatus r).foByte = r.foByte := rfl
@[simp] theorem setDigitStatus_foLast (r : Resp) : (setDigitStatus r).foLast = r.foLast := rfl
@[simp] theorem setDigitStatus_digits (r : Resp) : respDigits (setDigitStatus r) = respDigits r := rfl

@[simp] theorem defaultResp_status : defaultResp.status = .ok := rfl
@[simp] theorem defaultResp_foValid : defaultResp.foValid = false := rfl
@[simp] theorem defaultResp_digits : respDigits defaultResp = [] := rfl

/-- The first digit emitted is the only one. -/
@[simp] theorem emitDigit_first_digits (n : Nibble) : respDigits (emitDigit n defaultResp) = [n] := rfl

/-- The second digit emitted follows the first. -/
@[simp] theorem emitDigit_second_digits (n m : Nibble) :
    respDigits (emitDigit m (emitDigit n defaultResp)) = [n, m] := rfl

/-- Emitting digits leaves the frame outputs alone. -/
@[simp] theorem emitDigit_foValid (n : Nibble) (r : Resp) : (emitDigit n r).foValid = r.foValid := by
  unfold emitDigit; split <;> rfl

end Sys2Proof.Machine
end

