-- ==== Sys2Proof/Laws/Exec.lean ====
section
/-! SUPPORT. What every command can do, said once: the new ACC, the new TERM and the response are functions of the old
ACC, the old TERM and the command, and nothing else of the state changes. -/

namespace Sys2Proof.Machine

/-- The new ACC. -/
def accAfter (i : Instr) (a : Byte) : Byte :=
  match i with
  | .nop => a
  | .ckInit => 0x00#8
  | .ckAdd d => addByte a d
  | .ckEnd => a
  | .bcdInit => a
  | .bcdByte _ => a
  | .reservedLow _ => a
  | .reservedHigh _ => a

/-- The new TERM. -/
def termAfter (i : Instr) (b : Bool) : Bool :=
  match i with
  | .nop => b
  | .ckInit => b
  | .ckAdd _ => b
  | .ckEnd => b
  | .bcdInit => false
  | .bcdByte d => b || (splitByte d).2
  | .reservedLow _ => b
  | .reservedHigh _ => b

/-- The response. -/
def respTo (i : Instr) (a : Byte) (b : Bool) : Resp :=
  match i with
  | .nop => defaultResp
  | .ckInit => defaultResp
  | .ckAdd d => emitFrame d false defaultResp
  | .ckEnd => emitFrame a true defaultResp
  | .bcdInit => defaultResp
  | .bcdByte d => if b then setStatus .discarded defaultResp else setDigitStatus (splitByte d).1
  | .reservedLow _ => setStatus .illegal defaultResp
  | .reservedHigh _ => setStatus .illegal defaultResp

/-- The state after a command. -/
def after (i : Instr) (s : State) : State :=
  { s with
    acc := accAfter i s.acc
    term := termAfter i s.term
    responses := s.responses ++ [respTo i s.acc s.term] }

@[simp] theorem after_acc (i : Instr) (s : State) : (after i s).acc = accAfter i s.acc := rfl
@[simp] theorem after_term (i : Instr) (s : State) : (after i s).term = termAfter i s.term := rfl
@[simp] theorem after_resetIn (i : Instr) (s : State) : (after i s).resetIn = s.resetIn := rfl
@[simp] theorem after_port (i : Instr) (s : State) : (after i s).port = s.port := rfl
@[simp] theorem after_responses (i : Instr) (s : State) :
    (after i s).responses = s.responses ++ [respTo i s.acc s.term] := rfl

/-- The block's own step, in the same three functions. -/
theorem blockStep_eq (i : Instr) (b : Block) :
    blockStep i b = (⟨accAfter i b.acc, termAfter i b.term⟩, respTo i b.acc b.term) := by
  cases i with
  | bcdByte d =>
    obtain ⟨a, t⟩ := b
    cases t <;> rfl
  | _ => rfl

/-- Every command answers the next state `after i s`. -/
theorem exec_eq_after (i : Instr) (s : State) : exec i s = .next (after i s) := by
  cases i with
  | bcdByte d =>
    obtain ⟨⟨a, b⟩, c, p, rs⟩ := s
    cases b <;> rfl
  | _ => rfl

/-- What a command leaves alone: the reset input and the host's coming actions. -/
theorem exec_frame (i : Instr) (s t : State) (h : exec i s = .next t) :
    t.resetIn = s.resetIn ∧ t.port = s.port := by
  rw [exec_eq_after] at h
  cases h
  exact ⟨rfl, rfl⟩

/-- What the decoder makes of a byte: nothing after a terminator in the high nibble, one digit before one in the low
nibble, two digits otherwise (41_bcd.md R64). -/
theorem splitByte_cases (d : Byte) :
    (hiNibble d = termNib ∧ splitByte d = (defaultResp, true)) ∨
    (hiNibble d ≠ termNib ∧ loNibble d = termNib ∧ splitByte d = (emitDigit (hiNibble d) defaultResp, true)) ∨
    (hiNibble d ≠ termNib ∧ loNibble d ≠ termNib ∧
      splitByte d = (emitDigit (loNibble d) (emitDigit (hiNibble d) defaultResp), false)) := by
  by_cases h : hiNibble d = termNib
  · exact .inl ⟨h, by simp [splitByte, isTerminator, h]⟩
  · by_cases l : loNibble d = termNib
    · exact .inr (.inl ⟨h, l, by simp [splitByte, isTerminator, h, l]⟩)
    · exact .inr (.inr ⟨h, l, by simp [splitByte, isTerminator, h, l]⟩)

/-- A digit response carries no frame byte. -/
@[simp] theorem splitByte_foValid (d : Byte) : (splitByte d).1.foValid = false := by
  rcases splitByte_cases d with ⟨_, e⟩ | ⟨_, _, e⟩ | ⟨_, _, e⟩ <;> simp [e]

end Sys2Proof.Machine
end

