-- ==== Sys2Proof/Laws/Operands.lean ====
section
/-! SUPPORT. The nibbles of a byte and the add of CKG, as numbers and as bit vectors. -/

namespace Sys2Proof.Machine

/-- The high nibble as a number. -/
theorem hiNibble_toNat (d : Byte) : (hiNibble d).toNat = d.toNat / 16 := by
  have h := d.isLt
  simp only [hiNibble, BitVec.extractLsb'_toNat, Nat.shiftRight_eq_div_pow]
  omega

/-- The low nibble as a number. -/
theorem loNibble_toNat (d : Byte) : (loNibble d).toNat = d.toNat % 16 := by
  simp [loNibble, BitVec.extractLsb'_toNat]

/-- The high nibble as a shifted and cut byte. -/
theorem hiNibble_eq_shift (d : Byte) : hiNibble d = (d >>> 4).setWidth 4 := by
  have h := d.isLt
  apply BitVec.eq_of_toNat_eq
  rw [hiNibble_toNat]
  simp only [BitVec.toNat_setWidth, BitVec.toNat_ushiftRight, Nat.shiftRight_eq_div_pow]
  omega

/-- The low nibble as a cut byte. -/
theorem loNibble_eq_setWidth (d : Byte) : loNibble d = d.setWidth 4 := by
  apply BitVec.eq_of_toNat_eq
  rw [loNibble_toNat]
  simp [BitVec.toNat_setWidth]

/-- The terminator is the nibble 15. -/
theorem eq_termNib_iff (n : Nibble) : n = termNib ↔ n.toNat = 15 :=
  ⟨fun h => by rw [h]; rfl, fun h => BitVec.eq_of_toNat_eq h⟩

/-- The add of CKG is the 8-bit wrap-around add (40_checksum.md R53). -/
theorem addByte_eq_add (a d : Byte) : addByte a d = a + d := by
  apply BitVec.eq_of_toNat_eq
  simp [addByte, BitVec.toNat_add]

/-- The checksum of no bytes. -/
@[simp] theorem cksum_nil : cksum [] = 0x00#8 := rfl

/-- The checksum of one more byte, the running value that ACC holds. -/
theorem cksum_append_one (bs : List Byte) (d : Byte) : cksum (bs ++ [d]) = addByte (cksum bs) d := by
  apply BitVec.eq_of_toNat_eq
  simp [cksum, addByte]

end Sys2Proof.Machine
end

