-- ==== Sys2Proof/Laws/PerInstr.lean ====
section
/-! SUPPORT. Per-command families. -/

namespace Sys2Proof.Laws.EncodeFields

/-- The fields of a command's canonical word are its opcode and its operand (30_encoding.md R42, R44; log 12 for
reserved commands). -/
def Statement (i : Instr) : Prop := opField (encode i) = opcodeOf i ∧ dataField (encode i) = operandOf i

theorem nop : Statement .nop := by simp [Statement, encode]
theorem ckInit : Statement .ckInit := by simp [Statement, encode]
theorem ckAdd (d : Byte) : Statement (.ckAdd d) := by simp [Statement, encode]
theorem ckEnd : Statement .ckEnd := by simp [Statement, encode]
theorem bcdInit : Statement .bcdInit := by simp [Statement, encode]
theorem bcdByte (d : Byte) : Statement (.bcdByte d) := by simp [Statement, encode]
theorem reservedLow (op : Nibble) : Statement (.reservedLow op) := by simp [Statement, encode]
theorem reservedHigh (op : Nibble) : Statement (.reservedHigh op) := by simp [Statement, encode]

end Sys2Proof.Laws.EncodeFields
end

