-- ==== Sys2Proof/Laws/Run.lean ====
section
/-! SUPPORT. Steps and runs: what one step can do, and the run of a presented stream as one pass over its commands. -/

namespace Sys2Proof.Machine

/-- The state after a stream of commands. -/
def afterAll (is : List Instr) (s : State) : State := is.foldl (fun t i => after i t) s

@[simp] theorem afterAll_nil (s : State) : afterAll [] s = s := rfl
@[simp] theorem afterAll_cons (i : Instr) (is : List Instr) (s : State) :
    afterAll (i :: is) s = afterAll is (after i s) := rfl
theorem afterAll_append (is js : List Instr) (s : State) :
    afterAll (is ++ js) s = afterAll js (afterAll is s) := List.foldl_append

@[simp] theorem afterAll_resetIn (is : List Instr) (s : State) : (afterAll is s).resetIn = s.resetIn := by
  induction is generalizing s with
  | nil => rfl
  | cons i is ih => simp [ih]

@[simp] theorem afterAll_port (is : List Instr) (s : State) : (afterAll is s).port = s.port := by
  induction is generalizing s with
  | nil => rfl
  | cons i is ih => simp [ih]

/-- The final ACC of a stream is a function of the ACC it begins with. -/
theorem afterAll_acc (is : List Instr) (s : State) :
    (afterAll is s).acc = is.foldl (fun a i => accAfter i a) s.acc := by
  induction is generalizing s with
  | nil => rfl
  | cons i is ih => simp [ih]

/-- The final TERM of a stream is a function of the TERM it begins with. -/
theorem afterAll_term (is : List Instr) (s : State) :
    (afterAll is s).term = is.foldl (fun b i => termAfter i b) s.term := by
  induction is generalizing s with
  | nil => rfl
  | cons i is ih => simp [ih]

/-- The responses to a stream, from the ACC and TERM it begins with. -/
def respsTo : List Instr → Byte → Bool → List Resp
  | [], _, _ => []
  | i :: is, a, b => respTo i a b :: respsTo is (accAfter i a) (termAfter i b)

@[simp] theorem respsTo_nil (a : Byte) (b : Bool) : respsTo [] a b = [] := rfl
@[simp] theorem respsTo_cons (i : Instr) (is : List Instr) (a : Byte) (b : Bool) :
    respsTo (i :: is) a b = respTo i a b :: respsTo is (accAfter i a) (termAfter i b) := rfl

@[simp] theorem respsTo_length (is : List Instr) (a : Byte) (b : Bool) : (respsTo is a b).length = is.length := by
  induction is generalizing a b with
  | nil => rfl
  | cons i is ih => simp [ih]

/-- A stream adds its responses to those returned before. -/
theorem afterAll_responses (is : List Instr) (s : State) :
    (afterAll is s).responses = s.responses ++ respsTo is s.acc s.term := by
  induction is generalizing s with
  | nil => simp
  | cons i is ih => simp [ih]

/-- The step at a presented word, with reset released. -/
theorem step_command {s : State} {w : CmdWord} {rest : List HostAction} (hr : s.resetIn = false)
    (hp : s.port = .command w :: rest) : step s = .next (after (decode w) { s with port := rest }) := by
  simp [step, stepPort, hp, performAction, hr, acceptWord, exec_eq_after]

/-- Performing accepted words one after another. -/
theorem acceptWords_eq (ws : List CmdWord) (s : State) :
    acceptWords ws s = .next (afterAll (ws.map decode) s) := by
  induction ws generalizing s with
  | nil => rfl
  | cons w ws ih => simp [acceptWords, acceptWord, exec_eq_after, ih]

/-- A run takes its first step and goes on from there. -/
theorem run_succ {s t : State} (n : Nat) (h : step s = .next t) :
    Host.Core.run Sys2Proof.core (n + 1) s = Host.Core.run Sys2Proof.core n t := by
  have h' : Sys2Proof.core.step s = .next t := h
  simp only [Host.Core.run]
  rw [h']

/-- The run of a presented stream. -/
theorem run_present (ws : List CmdWord) (s : State) (hr : s.resetIn = false) :
    Host.Core.run Sys2Proof.core ws.length (present ws s) = .next (afterAll (ws.map decode) s) := by
  induction ws generalizing s with
  | nil => rfl
  | cons w ws ih =>
    have h := step_command (s := present (w :: ws) s) (w := w) (rest := ws.map HostAction.command ++ s.port)
      (by simpa using hr) (by simp)
    rw [List.length_cons, run_succ _ h]
    exact ih (after (decode w) s) (by simpa using hr)

/-- Everything one step can do: wait, perform a word, ignore one during reset, change the reset input, or nothing. -/
theorem step_cases (s t : State) (h : step s = .next t) :
    (s.port = [] ∧ t = s) ∨
    (∃ w rest, s.port = .command w :: rest ∧ s.resetIn = false ∧ t = after (decode w) { s with port := rest }) ∨
    (∃ w rest, s.port = .command w :: rest ∧ s.resetIn = true ∧ t = { s with port := rest }) ∨
    (∃ ws rest, s.port = .assertReset ws :: rest ∧ s.resetIn = false ∧
      ∃ u, resolveInflight Config.resetInflight ws { s with port := rest } = .next u ∧
        t = raiseReset Config.resetClearsOnAssert u) ∨
    (∃ ws rest, s.port = .assertReset ws :: rest ∧ s.resetIn = true ∧ t = { s with port := rest }) ∨
    (∃ rest, s.port = .releaseReset :: rest ∧ t = releaseReset { s with port := rest }) := by
  unfold step stepPort at h
  split at h
  · exact .inl ⟨‹_›, by cases h; rfl⟩
  · rename_i a rest hp
    right
    cases a with
    | command w =>
      simp only [performAction] at h
      split at h
      · exact .inr (.inl ⟨w, rest, hp, ‹_›, by cases h; rfl⟩)
      · rename_i hr
        refine .inl ⟨w, rest, hp, by simpa using hr, ?_⟩
        rw [acceptWord, exec_eq_after] at h
        cases h; rfl
    | assertReset ws =>
      simp only [performAction, assertReset] at h
      split at h
      · exact .inr (.inr (.inr (.inl ⟨ws, rest, hp, ‹_›, by cases h; rfl⟩)))
      · rename_i hr
        refine .inr (.inr (.inl ⟨ws, rest, hp, by simpa using hr, ?_⟩))
        split at h
        · exact ⟨_, ‹_›, by cases h; rfl⟩
        · cases h
        · cases h
    | releaseReset =>
      exact .inr (.inr (.inr (.inr ⟨rest, hp, by cases h; rfl⟩)))

end Sys2Proof.Machine
end

