-- ==== Sys2Proof/Laws/Streams.lean ====
section
/-! SUPPORT. The run of a presented stream and the outputs of its parts. -/

namespace Sys2Proof.Machine

/-- The run of words, as one pass over the commands they decode to. -/
theorem runWords_eq (ws : List CmdWord) (s : State) (hr : s.resetIn = false) :
    runWords ws s = .next (afterAll (ws.map decode) s) := run_present ws s hr

/-- The responses to a stream in two parts. -/
theorem respsTo_append (is js : List Instr) (s : State) : respsTo (is ++ js) s.acc s.term =
    respsTo is s.acc s.term ++ respsTo js (afterAll is s).acc (afterAll is s).term := by
  have h := afterAll_responses (is ++ js) s
  rw [afterAll_append, afterAll_responses, afterAll_responses] at h
  simpa using h.symm

/-- The frame output of two parts. -/
theorem frameOutput_append (rs qs : List Resp) : frameOutput (rs ++ qs) = frameOutput rs ++ frameOutput qs := by
  simp [frameOutput]

/-- The frame marks of two parts. -/
theorem frameMarks_append (rs qs : List Resp) : frameMarks (rs ++ qs) = frameMarks rs ++ frameMarks qs := by
  simp [frameMarks]

/-- The digit output of two parts. -/
theorem digitOutput_append (rs qs : List Resp) : digitOutput (rs ++ qs) = digitOutput rs ++ digitOutput qs := by
  simp [digitOutput]

/-- The nibbles of two parts. -/
theorem nibblesOf_append (bs cs : List Byte) : nibblesOf (bs ++ cs) = nibblesOf bs ++ nibblesOf cs := by
  simp [nibblesOf]

/-- Two states with equal fields are equal. -/
theorem state_ext {s t : State} (ha : s.acc = t.acc) (hb : s.term = t.term) (hr : s.resetIn = t.resetIn)
    (hp : s.port = t.port) (hq : s.responses = t.responses) : s = t := by
  obtain ⟨⟨_, _⟩, _, _, _⟩ := s
  obtain ⟨⟨_, _⟩, _, _, _⟩ := t
  simp_all

end Sys2Proof.Machine
end

