-- ==== Sys2Proof/Tests/Slice0.lean ====
section
/-! SUPPORT. Tests. The expected values are those of 95_test_vectors.md, named by their ids there, or are worked out by
hand from the rule named. -/

namespace Sys2Proof.Tests

open Sys2Proof.Machine

/-- A small state: ACC, TERM, reset released, nothing presented, no response. -/
def smallState (acc : Byte) (term : Bool) : State := ⟨⟨acc, term⟩, false, [], []⟩

/-- The state an outcome goes on with. -/
def nextOf (o : Host.Outcome State Fault Refusal) : Option State :=
  match o with
  | .next s => some s
  | .fault _ => none
  | .refused _ => none

/-- ACC, TERM and the responses after one word from a small state. -/
def oneWord (w : CmdWord) (acc : Byte) (term : Bool) : Option (Byte × Bool × List Resp) :=
  (nextOf (step (present [w] (smallState acc term)))).map fun s => (s.acc, s.term, s.responses)

/-! ## WellFormed refuses the ill-formed terms -/

theorem test_reservedLow_below_refused : (Instr.reservedLow 0x5).wellFormed = false := by decide
theorem test_reservedLow_above_refused : (Instr.reservedLow 0x8).wellFormed = false := by decide
theorem test_reservedHigh_below_refused : (Instr.reservedHigh 0x7).wellFormed = false := by decide

/-! ## Decoding of words written out from R40 and R42: op in bits 11..8, data in bits 7..0 -/

theorem test_decode_nop : decode 0b000011111111#12 = .nop := by decide
theorem test_decode_ckInit : decode 0b000110100101#12 = .ckInit := by decide
theorem test_decode_ckAdd : decode 0b001011000011#12 = .ckAdd 0xC3 := by decide
theorem test_decode_ckEnd : decode 0b001100000000#12 = .ckEnd := by decide
theorem test_decode_bcdInit : decode 0b010011111111#12 = .bcdInit := by decide
theorem test_decode_bcdByte : decode 0b010100010010#12 = .bcdByte 0x12 := by decide
theorem test_decode_reservedLow : decode 0b011110101011#12 = .reservedLow 0x7 := by decide
theorem test_decode_reservedHigh : decode 0b100001000001#12 = .reservedHigh 0x8 := by decide
theorem test_decode_rejects_wide : decodeRaw 0x1000 = .error .widerThanCommandWord := by decide

/-! ## The host's entry points -/

theorem test_decodeTableWord : decodeTableWord 16 0x241 = some (.ckAdd 0x41) := by decide
theorem test_withFetchWord_runs_next :
    (nextOf (step (State.reset.withFetchWord 16 0x241))).map (·.acc) = some 0x41 := by decide

/-! ## Single commands: ACC, TERM and the response (vectors C, D and N) -/

/-- N2. -/
theorem test_nop : oneWord 0x0FF 0x15 true = some (0x15, true, [⟨.ok, false, 0, false, 0, 0, 0⟩]) := by decide
/-- C10. -/
theorem test_ckInit : oneWord 0x1A5 0x12 false = some (0x00, false, [⟨.ok, false, 0, false, 0, 0, 0⟩]) := by decide
/-- C5. -/
theorem test_ckAdd_wraps : oneWord 0x2FF 0xFF false = some (0xFE, false, [⟨.ok, true, 0xFF, false, 0, 0, 0⟩]) := by
  decide
/-- C6. -/
theorem test_ckAdd_zero : oneWord 0x200 0x33 true = some (0x33, true, [⟨.ok, true, 0x00, false, 0, 0, 0⟩]) := by
  decide
/-- C8. -/
theorem test_ckEnd : oneWord 0x300 0x5C true = some (0x5C, true, [⟨.ok, true, 0x5C, true, 0, 0, 0⟩]) := by decide
/-- D1. -/
theorem test_bcdInit : oneWord 0x400 0x00 true = some (0x00, false, [⟨.ok, false, 0, false, 0, 0, 0⟩]) := by decide
/-- D13. -/
theorem test_bcdByte_bad_then_terminator :
    oneWord 0x5AF 0x00 false = some (0x00, true, [⟨.badNibble, false, 0, false, 1, 0xA, 0⟩]) := by decide
/-- D17. -/
theorem test_bcdByte_digits :
    oneWord 0x537 0x7B false = some (0x7B, false, [⟨.ok, false, 0, false, 2, 3, 7⟩]) := by decide
/-- N4. -/
theorem test_reservedLow : oneWord 0x7AB 0x01 false = some (0x01, false, [⟨.illegal, false, 0, false, 0, 0, 0⟩]) := by
  decide
/-- N6. -/
theorem test_reservedHigh : oneWord 0xFFF 0x01 true = some (0x01, true, [⟨.illegal, false, 0, false, 0, 0, 0⟩]) := by
  decide

/-! ## The block by itself -/

/-- Steps 1, 2, 4 and 8 of program P3: the frame `00 0C 0C` from ACC = 0x5A, TERM = 1. -/
theorem test_blockRun_P3 : (blockRun [0x100, 0x200, 0x20C, 0x300] ⟨0x5A, true⟩).1 = ⟨0x0C, true⟩ ∧
    frameOutput (blockRun [0x100, 0x200, 0x20C, 0x300] ⟨0x5A, true⟩).2 = [0x00, 0x0C, 0x0C] := by decide

/-! ## Reset and waiting -/

/-- R91: a word presented while reset is asserted is not accepted. -/
theorem test_word_during_reset :
    (nextOf (step ⟨⟨0x11, true⟩, true, [.command 0x241], []⟩)).map (fun s => (s.acc, s.responses)) = some (0x11, []) := by
  decide
/-- R91, R92: the release leaves the reset values. -/
theorem test_release : (nextOf (step ⟨⟨0x11, true⟩, true, [.releaseReset], []⟩)) = some (smallState 0x00 false) := by decide
/-- R100: with no word the block waits. -/
theorem test_idle : nextOf (step (smallState 0x11 true)) = some (smallState 0x11 true) := by decide

/-! ## Checksum, reference decoder and text -/

/-- W2a: 1 + 20·65 = 1301 = 5·256 + 21. -/
theorem test_cksum_W2a : cksum ([0x00, 0x01] ++ List.replicate 20 0x41) = 0x15 := by decide
/-- B1. -/
theorem test_decodeBCD_B1 : decodeBCD [0x12, 0x3F, 0x45] = [1, 2, 3] := by decide
/-- R51: `0x241` prints as `CK_ADD 0x41`. -/
theorem test_disassemble : disassemble 0x241 = "CK_ADD 0x41".toList := by decide
/-- P1's first line. -/
theorem test_assemble_P1 : assembleLine "CK_FRAME 0x00, 0x01, 'H', 'I'   ; expands to:".toList =
    some [0x100, 0x200, 0x201, 0x248, 0x249, 0x300] := by decide
/-- R49 with R11: a hex string; R48: `.word`, a decimal literal, two lines. -/
theorem test_assemble_text : assemble "CK_FRAME \"0001\"\n.word 0x7AB\nBCD_BYTE 18".toList =
    some [0x100, 0x200, 0x201, 0x300, 0x7AB, 0x512] := by decide

/-- Log 14: blank and comment lines stand for no word, and one bad line rejects the text. -/
theorem test_assemble_blank_lines : assemble "NOP\n\n ; c\n".toList = some [0x000] ∧
    assemble "NOP\nBAD\n".toList = none := by decide

/-! ## Witnesses: a state and operands that meet the hypotheses of each statement together -/

theorem witness_ckAdd_word : (0x241#12 &&& 0xF00#12 = 0x200#12) ∧ decode 0x241 = .ckAdd 0x41 := by decide
theorem witness_bcdByte_word : (0x512#12 &&& 0xF00#12 = 0x500#12) ∧ decode 0x512 = .bcdByte 0x12 := by decide
theorem witness_not_bcdInit : Instr.bcdByte 0xFF ≠ .bcdInit ∧ (smallState 0 true).term = true := by decide
/-- Each row of the outcome table at the ends of its nibble ranges. -/
theorem witness_outcome_rows : (smallState 0 false).term = false ∧ (0xF#4 : Nibble) = 0xF ∧
    ((0x0#4).toNat ≤ 9 ∧ (0x9#4).toNat ≤ 9) ∧ (10 ≤ (0xA#4).toNat ∧ (0xA#4).toNat ≤ 14) ∧
    (10 ≤ (0xE#4).toNat ∧ (0xE#4).toNat ≤ 14) ∧ (smallState 0 true).term = true := by decide
theorem witness_units : isCkg (.ckAdd 0xFF) = true ∧ isBcd (.bcdByte 0xFF) = true ∧ isCkg .nop = false ∧
    isBcd .nop = false := by decide
theorem witness_idempotent : (∀ d, Instr.ckEnd ≠ .ckAdd d) ∧ (∀ d, Instr.ckEnd ≠ .bcdByte d) :=
  ⟨by intro d; exact Instr.noConfusion, by intro d; exact Instr.noConfusion⟩
theorem witness_wellFormed : (Instr.reservedLow 0x6).wellFormed = true ∧ (Instr.reservedLow 0x7).wellFormed = true ∧
    (Instr.reservedHigh 0x8).wellFormed = true ∧ (Instr.reservedHigh 0xF).wellFormed = true := by decide
theorem witness_table_rows : opcodeTable[0]? = some ⟨"NOP", 0xF00#12, 0x000#12⟩ ∧
    opcodeTable[7]? = some ⟨"RESERVED", 0x800#12, 0x800#12⟩ := by decide
theorem witness_ignored_data : ∀ op ∈ [0x0#4, 0x1#4, 0x3#4, 0x4#4], op = 0x0 ∨ op = 0x1 ∨ op = 0x3 ∨ op = 0x4 := by
  decide
theorem witness_wide_values : 4096 ≤ 4096 ∧ 4095 < 4096 := by decide
theorem witness_presented : (present [0x241] State.reset).resetIn = false ∧
    (present [0x241] State.reset).port = .command 0x241 :: [] ∧ decode 0x241 = .ckAdd 0x41 := by decide
theorem witness_idle : State.reset.port = [] := by decide
theorem witness_released : State.reset.resetIn = false ∧ (smallState 0xFF true).resetIn = false := by decide
/-- Two states that agree on ACC and TERM only. -/
theorem witness_agreeing_states : (smallState 0x11 true).resetIn = false ∧
    (State.mk ⟨0x11, true⟩ false [.command 0x300] [defaultResp]).resetIn = false ∧
    (smallState 0x11 true).acc = (State.mk ⟨0x11, true⟩ false [.command 0x300] [defaultResp]).acc ∧
    (smallState 0x11 true).term = (State.mk ⟨0x11, true⟩ false [.command 0x300] [defaultResp]).term := by decide
/-- Two states that differ in their responses only, at the presentation of `CK_END`, and the states after it. -/
theorem witness_agreeing_steps : ∃ s s' t t' : State, s ≠ s' ∧ s.acc = s'.acc ∧ s.term = s'.term ∧
    s.resetIn = s'.resetIn ∧ s.port = s'.port ∧ step s = .next t ∧ step s' = .next t' :=
  ⟨⟨⟨0x11, true⟩, false, [.command 0x300], []⟩, ⟨⟨0x11, true⟩, false, [.command 0x300], [defaultResp]⟩,
    ⟨⟨0x11, true⟩, false, [], [⟨.ok, true, 0x11, true, 0, 0, 0⟩]⟩,
    ⟨⟨0x11, true⟩, false, [], [defaultResp, ⟨.ok, true, 0x11, true, 0, 0, 0⟩]⟩,
    by decide, rfl, rfl, rfl, rfl, rfl, rfl⟩
theorem witness_release : (State.mk ⟨0x11, true⟩ true [.releaseReset] []).resetIn = true ∧
    (State.mk ⟨0x11, true⟩ true [.releaseReset] []).port = .releaseReset :: [] := by decide
theorem witness_after_reset : (State.mk ⟨0, false⟩ false [] [defaultResp]).resetIn = false ∧
    (State.mk ⟨0, false⟩ false [] [defaultResp]).acc = 0x00 ∧ (State.mk ⟨0, false⟩ false [] [defaultResp]).term = false := by
  decide
/-- The frame of W1, `00 01 01`. -/
theorem witness_recompute : (smallState 0x7E false).resetIn = false ∧ (smallState 0x00 true).resetIn = false ∧
    runCommands (ckFrame [0x00, 0x01]) (smallState 0x7E false) = .next ⟨⟨0x01, false⟩, false, [],
      [⟨.ok, false, 0, false, 0, 0, 0⟩, ⟨.ok, true, 0x00, false, 0, 0, 0⟩, ⟨.ok, true, 0x01, false, 0, 0, 0⟩,
       ⟨.ok, true, 0x01, true, 0, 0, 0⟩]⟩ ∧
    frameOutput [⟨.ok, false, 0, false, 0, 0, 0⟩, ⟨.ok, true, 0x00, false, 0, 0, 0⟩,
      ⟨.ok, true, 0x01, false, 0, 0, 0⟩, ⟨.ok, true, 0x01, true, 0, 0, 0⟩] = [0x00, 0x01] ++ [0x01] := by
  refine ⟨rfl, rfl, rfl, by decide⟩
theorem witness_permutation : [0x01#8, 0x02#8, 0x03#8].Perm [0x03#8, 0x02#8, 0x01#8] := by decide
/-- The words of K16 after its `CK_INIT`. -/
theorem witness_no_init : ∀ w ∈ [0x210#12, 0x599#12, 0x000#12, 0x6FF#12, 0x220#12, 0x300#12], decode w ≠ .ckInit := by
  decide
theorem witness_absorbed : (smallState 0x42 false).resetIn = false ∧ (smallState 0x42 false).acc = cksum [0x01, 0x41] := by decide
/-- K16 after reset, then a second frame. -/
theorem witness_careful_host : State.reset.resetIn = false ∧ State.reset.acc = 0x00 ∧
    framesKept true ([0x210#12, 0x599#12, 0x6FF#12, 0x220#12, 0x300#12, 0x100#12, 0x300#12].map decode) = true := by
  decide
theorem witness_terminated : (smallState 0 true).resetIn = false ∧ (smallState 0 true).term = true ∧
    ∀ w ∈ [0x545#12, 0x100#12, 0x5FF#12, 0xFFF#12], decode w ≠ .bcdInit := by decide
/-- A first terminator at index 1, and none before it. -/
theorem witness_terminator_index : (nibblesOf [0x3F, 0x45])[1]? = some 0xF#4 ∧
    ∀ j < 1, (nibblesOf [0x3F, 0x45])[j]? ≠ some 0xF#4 := by decide
theorem witness_no_bad_nibble : badNibbleSeen [⟨.ok, false, 0, false, 2, 1, 2⟩] = false := by decide
theorem witness_fresh_field : State.reset.resetIn = false ∧ State.reset.term = false := by decide
theorem witness_sound : allSound (present [0x5AF] State.reset) ∧
    step (present [0x5AF] State.reset) = .next ⟨⟨0, true⟩, false, [], [⟨.badNibble, false, 0, false, 1, 0xA, 0⟩]⟩ :=
  ⟨rfl, rfl⟩

end Sys2Proof.Tests
end

section
/-! The scope statements (00_scope.md R7): the machine at its port is the block's own function. One lemma ties `after`,
what a command makes of the whole state, to `blockStep`; an induction carries it over streams to `blockRun`. -/

namespace Sys2Proof.Machine

/-! ## One command -/

/-- A command completes with the outcome of the block's own step. -/
theorem after_eq_commit_blockStep (i : Instr) (s : State) : after i s = commit (blockStep i s.toBlock) s := by
  rw [blockStep_eq]
  rfl

/-- Settles O51: `exec` answers `after i s`, which is the block's step completed at the port. -/
theorem execIsTheBlockStep : Obligations.ExecIsTheBlockStep := by
  intro i s
  rw [exec_eq_after, after_eq_commit_blockStep]
  rfl

/-- Settles O22: `step_command` with the command that the word decodes to. -/
theorem stepPerformsDecodedCommand : Obligations.StepPerformsDecodedCommand := by
  intro s w i rest hreset hport hdecode
  rw [step_command hreset hport, hdecode, exec_eq_after]

/-! ## Streams of words -/

@[simp] theorem blockRun_nil (b : Block) : blockRun [] b = (b, []) := rfl

/-- The state of a longer run is that of the rest from where the first word leaves the block. -/
@[simp] theorem blockRun_cons_block (w : CmdWord) (ws : List CmdWord) (b : Block) :
    (blockRun (w :: ws) b).1 = (blockRun ws (blockStep (decode w) b).1).1 := rfl

/-- The first word's response comes first. -/
@[simp] theorem blockRun_cons_responses (w : CmdWord) (ws : List CmdWord) (b : Block) :
    (blockRun (w :: ws) b).2 = (blockStep (decode w) b).2 :: (blockRun ws (blockStep (decode w) b).1).2 := rfl

/-- One response per word (20_memory.md R33). -/
@[simp] theorem blockRun_responses_length (ws : List CmdWord) (b : Block) : (blockRun ws b).2.length = ws.length := by
  induction ws generalizing b with
  | nil => rfl
  | cons w ws ih => simp [ih]

/-- A stream leaves the state that `blockRun` gives, by induction on the words: the first completes as one block step,
and its response precedes those of the rest. -/
theorem afterAll_decode_eq_blockRun (ws : List CmdWord) (s : State) :
    afterAll (ws.map decode) s = { s with
      toBlock := (blockRun ws s.toBlock).1, responses := s.responses ++ (blockRun ws s.toBlock).2 } := by
  induction ws generalizing s with
  | nil => simp
  | cons w ws ih => simp [ih, after_eq_commit_blockStep]

/-- Settles O52: the run is one pass over the decoded words (`runWords_eq`), which is `blockRun`. -/
theorem machineRefinesTheBlock : Obligations.MachineRefinesTheBlock := by
  intro s ws hreset
  refine ⟨?_, blockRun_responses_length ws s.toBlock⟩
  rw [runWords_eq ws s hreset, afterAll_decode_eq_blockRun]

end Sys2Proof.Machine
end

section
/-! One step at the port, whatever the host was returned before (10_state.md R19). `withResponses` changes only the list of
the responses returned so far; every step commutes with it, and what the step appends are the responses to the commands it
performs. Both invariants of one step are read off from `step_withResponses`. -/

namespace Sys2Proof.Machine

/-! ## The same state with other responses returned before -/

/-- `s` as if exactly the responses `qs` had been returned before. -/
def withResponses (qs : List Resp) (s : State) : State := { s with responses := qs }

@[simp] theorem withResponses_acc (qs : List Resp) (s : State) : (withResponses qs s).acc = s.acc := rfl
@[simp] theorem withResponses_term (qs : List Resp) (s : State) : (withResponses qs s).term = s.term := rfl
@[simp] theorem withResponses_resetIn (qs : List Resp) (s : State) : (withResponses qs s).resetIn = s.resetIn := rfl
@[simp] theorem withResponses_port (qs : List Resp) (s : State) : (withResponses qs s).port = s.port := rfl
@[simp] theorem withResponses_responses (qs : List Resp) (s : State) : (withResponses qs s).responses = qs := rfl

/-- A state is itself with its own responses. -/
@[simp] theorem withResponses_self (s : State) : withResponses s.responses s = s := rfl

/-- Two states that agree on everything but the responses returned differ in `withResponses` only. -/
theorem eq_withResponses_of_agree {s s' : State} (hacc : s.acc = s'.acc) (hterm : s.term = s'.term)
    (hreset : s.resetIn = s'.resetIn) (hport : s.port = s'.port) : s' = withResponses s'.responses s :=
  state_ext hacc.symm hterm.symm hreset.symm hport.symm rfl

/-- Commands append their responses to whatever was returned before and read none of it. -/
theorem afterAll_withResponses (is : List Instr) (qs : List Resp) (s : State) :
    afterAll is (withResponses qs s) = withResponses (qs ++ respsTo is s.acc s.term) (afterAll is s) :=
  state_ext (by simp [afterAll_acc]) (by simp [afterAll_term]) (by simp) (by simp) (by simp [afterAll_responses])

/-- Raising the reset input leaves the responses alone and reads none. -/
theorem raiseReset_withResponses (c : Bool) (qs : List Resp) (s : State) :
    raiseReset c (withResponses qs s) = withResponses qs (raiseReset c s) := by
  cases c <;> rfl

/-- Releasing reset leaves the responses alone and reads none. -/
theorem releaseReset_withResponses (qs : List Resp) (s : State) :
    releaseReset (withResponses qs s) = withResponses qs (releaseReset s) := by
  cases hreset : s.resetIn with
  | false => simp [releaseReset, hreset]
  | true => simp only [releaseReset, withResponses_resetIn, hreset]; rfl

/-! ## One action of the host -/

/-- The commands among the words in flight that completed before the reset: all of them or none (log 5). -/
def completed : InflightChoice → List CmdWord → List Instr
  | .performed, ws => ws.map decode
  | .dropped, _ => []

/-- The words in flight act as the completed ones among them. -/
theorem resolveInflight_eq (c : InflightChoice) (ws : List CmdWord) (s : State) :
    resolveInflight c ws s = .next (afterAll (completed c ws) s) := by
  cases c with
  | performed => exact acceptWords_eq ws s
  | dropped => rfl

/-- An assertion of reset completes words in flight and then raises the input. -/
theorem assertReset_eq {s : State} (ws : List CmdWord) (hreset : s.resetIn = false) : assertReset ws s =
    .next (raiseReset Config.resetClearsOnAssert (afterAll (completed Config.resetInflight ws) s)) := by
  simp [assertReset, hreset, resolveInflight_eq]

/-- Every action of the host performs some commands, none of them during reset, and appends exactly their responses; in
nothing else does its outcome depend on what was returned before. -/
theorem performAction_withResponses (a : HostAction) (s : State) : ∃ t is, ∀ qs,
    performAction a (withResponses qs s) = .next (withResponses (qs ++ respsTo is s.acc s.term) t) := by
  cases a with
  | command w =>
    cases hreset : s.resetIn with
    | true => exact ⟨s, [], fun qs => by simp [performAction, hreset]⟩
    | false =>
      refine ⟨after (decode w) s, [decode w], fun qs => ?_⟩
      simpa [performAction, hreset, acceptWord, exec_eq_after] using afterAll_withResponses [decode w] qs s
  | assertReset ws =>
    cases hreset : s.resetIn with
    | true => exact ⟨s, [], fun qs => by simp [performAction, assertReset, hreset]⟩
    | false =>
      refine ⟨raiseReset Config.resetClearsOnAssert (afterAll (completed Config.resetInflight ws) s),
        completed Config.resetInflight ws, fun qs => ?_⟩
      rw [performAction, assertReset_eq ws (by simpa using hreset), afterAll_withResponses, raiseReset_withResponses]
  | releaseReset => exact ⟨releaseReset s, [], fun qs => by simp [performAction, releaseReset_withResponses]⟩

/-- With an action at the port, a step takes it from there and performs it. -/
theorem step_cons {s : State} {a : HostAction} {rest : List HostAction} (hport : s.port = a :: rest) :
    step s = performAction a { s with port := rest } := by
  simp [step, stepPort, hport]

/-- A step appends the responses to the commands it performs, and in nothing else does it depend on what was returned
before. -/
theorem step_withResponses (s : State) : ∃ t is, ∀ qs,
    step (withResponses qs s) = .next (withResponses (qs ++ respsTo is s.acc s.term) t) := by
  cases hport : s.port with
  | nil => exact ⟨s, [], fun qs => by simp [step, stepPort, hport]⟩
  | cons a rest =>
    obtain ⟨t, is, hperform⟩ := performAction_withResponses a { s with port := rest }
    exact ⟨t, is, fun qs => (step_cons (s := withResponses qs s) hport).trans (hperform qs)⟩

/-! ## Agreement on ACC and TERM -/

/-- Settles O53: the second state is the first with other responses returned, so one use of `step_withResponses` gives
both steps. -/
theorem stepKeepsAgreementOnAccAndTerm : Obligations.StepKeepsAgreementOnAccAndTerm := by
  intro s s' t t' hacc hterm hreset hport hstep hstep'
  obtain ⟨u, is, hu⟩ := step_withResponses s
  have ht : .next t = Host.Outcome.next _ := hstep.symm.trans (hu s.responses)
  have ht' : .next t' = Host.Outcome.next _ := hstep'.symm.trans
    ((congrArg step (eq_withResponses_of_agree hacc hterm hreset hport)).trans (hu s'.responses))
  cases ht
  cases ht'
  exact ⟨rfl, rfl, rfl, rfl, respsTo is s.acc s.term, rfl, rfl⟩

/-! ## Sound responses -/

/-- A frame byte alone is sound. -/
theorem soundResp_emitFrame (b : Byte) (last : Bool) : soundResp (emitFrame b last defaultResp) = true := by
  simp [soundResp, emitFrame, defaultResp, respDigits]

/-- What the decoder makes of a byte is sound once its status is set: no terminator is among the digits, and the status is
BAD_NIBBLE exactly with a digit above 9 (41_bcd.md R66, R68). -/
theorem soundResp_splitByte (d : Byte) : soundResp (setDigitStatus (splitByte d).1) = true := by
  rcases splitByte_cases d with ⟨_, e⟩ | ⟨hhi, _, e⟩ | ⟨hhi, hlo, e⟩
  · rw [e]; rfl
  · cases hnine : aboveNine (hiNibble d) <;>
      simp [e, soundResp, setDigitStatus, setStatus, emitDigit, defaultResp, respDigits, isTerminator, hhi, hnine]
  · cases hnine : aboveNine (hiNibble d) || aboveNine (loNibble d) <;>
      simp [e, soundResp, setDigitStatus, setStatus, emitDigit, defaultResp, respDigits, isTerminator, hhi, hlo, hnine]

/-- Every command's response is sound, from every ACC and TERM. -/
theorem soundResp_respTo (i : Instr) (a : Byte) (b : Bool) : soundResp (respTo i a b) = true := by
  cases i with
  | ckAdd d => exact soundResp_emitFrame d false
  | ckEnd => exact soundResp_emitFrame a true
  | bcdByte d =>
    cases b with
    | false => exact soundResp_splitByte d
    | true => rfl
  | _ => rfl

/-- So is every response to a stream. -/
theorem all_soundResp_respsTo (is : List Instr) (a : Byte) (b : Bool) : (respsTo is a b).all soundResp = true := by
  induction is generalizing a b with
  | nil => rfl
  | cons i is ih => rw [respsTo_cons, List.all_cons, soundResp_respTo, ih]; rfl

/-- Settles O49: the step appends responses to commands, and those are sound. -/
theorem stepKeepsResponsesSound : Obligations.StepKeepsResponsesSound := by
  intro s t hsound hstep
  obtain ⟨u, is, hu⟩ := step_withResponses s
  have ht : .next t = Host.Outcome.next _ := hstep.symm.trans (hu s.responses)
  cases ht
  rw [allSound, withResponses_responses, List.all_append, all_soundResp_respsTo, Bool.and_true]
  exact hsound

end Sys2Proof.Machine
end

section
/-! The two units of 10_state.md R24: a command outside CKG keeps ACC and answers without it, a command outside BCD keeps
TERM and answers without it. Over streams, `afterAll_filter` says when some commands answer as if they were alone. -/

namespace Sys2Proof.Machine

/-! ## One command -/

/-- No command belongs to both units. -/
theorem isBcd_eq_false_of_isCkg {i : Instr} (h : isCkg i = true) : isBcd i = false := by
  cases i <;> simp_all [isCkg, isBcd]

/-- No command belongs to both units. -/
theorem isCkg_eq_false_of_isBcd {i : Instr} (h : isBcd i = true) : isCkg i = false :=
  Bool.eq_false_iff.mpr fun hckg => by simp [isBcd_eq_false_of_isCkg hckg] at h

/-- Only CKG commands write ACC. -/
theorem accAfter_of_not_ckg {i : Instr} (h : isCkg i = false) (a : Byte) : accAfter i a = a := by
  cases i <;> simp_all [isCkg, accAfter]

/-- Only BCD commands write TERM. -/
theorem termAfter_of_not_bcd {i : Instr} (h : isBcd i = false) (b : Bool) : termAfter i b = b := by
  cases i <;> simp_all [isBcd, termAfter]

/-- Only CKG commands answer from ACC. -/
theorem respTo_of_not_ckg {i : Instr} (h : isCkg i = false) (a a' : Byte) (b : Bool) :
    respTo i a b = respTo i a' b := by
  cases i <;> simp_all [isCkg, respTo]

/-- Only BCD commands answer from TERM. -/
theorem respTo_of_not_bcd {i : Instr} (h : isBcd i = false) (a : Byte) (b b' : Bool) :
    respTo i a b = respTo i a b' := by
  cases i <;> simp_all [isBcd, respTo]

/-- A command outside CKG commutes with a change of ACC. -/
theorem after_setAcc_of_not_ckg {i : Instr} (h : isCkg i = false) (s : State) (a : Byte) :
    after i { s with acc := a } = { after i s with acc := a } :=
  state_ext (accAfter_of_not_ckg h a) rfl rfl rfl (by simp [respTo_of_not_ckg h a s.acc])

/-- A command outside BCD commutes with a change of TERM. -/
theorem after_setTerm_of_not_bcd {i : Instr} (h : isBcd i = false) (s : State) (b : Bool) :
    after i { s with term := b } = { after i s with term := b } :=
  state_ext rfl (termAfter_of_not_bcd h b) rfl rfl (by simp [respTo_of_not_bcd h s.acc b s.term])

/-- Settles O11: a command commutes with a change of what its unit does not hold, and keeps it. -/
theorem unitsAreIndependent : Obligations.UnitsAreIndependent := by
  refine ⟨fun i hckg s b => ?_, fun i hbcd s a => ?_, fun i hckg hbcd s a b => ?_⟩
  · have hbcd := isBcd_eq_false_of_isCkg hckg
    exact ⟨after i s, exec_eq_after i s, termAfter_of_not_bcd hbcd s.term, by
      rw [exec_eq_after, after_setTerm_of_not_bcd hbcd]⟩
  · have hckg := isCkg_eq_false_of_isBcd hbcd
    exact ⟨after i s, exec_eq_after i s, accAfter_of_not_ckg hckg s.acc, by
      rw [exec_eq_after, after_setAcc_of_not_ckg hckg]⟩
  · exact ⟨after i s, exec_eq_after i s, accAfter_of_not_ckg hckg s.acc, termAfter_of_not_bcd hbcd s.term, by
      rw [exec_eq_after, after_setAcc_of_not_ckg hckg { s with term := b }, after_setTerm_of_not_bcd hbcd]⟩

/-! ## Streams -/

/-- Settles O26: final ACC, final TERM and responses of a stream are functions of the ACC and TERM it begins with. -/
theorem responsesDependOnlyOnAccTermAndWords : Obligations.ResponsesDependOnlyOnAccTermAndWords := by
  intro s s' ws hreset hreset' hacc hterm
  refine ⟨_, _, respsTo (ws.map decode) s.acc s.term, runWords_eq ws s hreset, runWords_eq ws s' hreset', ?_, ?_,
    afterAll_responses _ s, ?_⟩
  · rw [afterAll_acc, afterAll_acc, hacc]
  · rw [afterAll_term, afterAll_term, hterm]
  · rw [afterAll_responses, hacc, hterm]

/-- The commands that `p` picks answer in a stream as they do alone, when some relation `R` between the two runs survives
the commands left out, and survives those picked, which it makes answer alike. -/
theorem afterAll_filter {p : Instr → Bool} {R : State → State → Prop}
    (hskip : ∀ i s u, p i = false → R s u → R (after i s) u)
    (hkeep : ∀ i s u, p i = true → R s u →
      R (after i s) (after i u) ∧ respTo i s.acc s.term = respTo i u.acc u.term)
    (is : List Instr) (s u : State) (h : R s u) :
    R (afterAll is s) (afterAll (is.filter p) u) ∧ respsTo (is.filter p) u.acc u.term =
      ((is.zip (respsTo is s.acc s.term)).filter fun q => p q.1).map Prod.snd := by
  induction is generalizing s u with
  | nil => exact ⟨h, rfl⟩
  | cons i is ih =>
    cases hp : p i with
    | false => simpa [hp] using ih (after i s) u (hskip i s u hp h)
    | true =>
      obtain ⟨hnext, hresp⟩ := hkeep i s u hp h
      simpa [hp, hresp] using ih (after i s) (after i u) hnext

/-- The CKG commands of a stream leave the same ACC and answer alike without the others. -/
theorem afterAll_filter_isCkg (is : List Instr) (s : State) :
    (afterAll is s).acc = (afterAll (is.filter isCkg) s).acc ∧ respsTo (is.filter isCkg) s.acc s.term =
      ((is.zip (respsTo is s.acc s.term)).filter fun q => isCkg q.1).map Prod.snd := by
  refine afterAll_filter (R := fun s u => s.acc = u.acc) (fun i s u hp h => ?_) (fun i s u hp h => ?_) is s s rfl
  · exact (accAfter_of_not_ckg hp s.acc).trans h
  · exact ⟨congrArg (accAfter i) h, by rw [h, respTo_of_not_bcd (isBcd_eq_false_of_isCkg hp)]⟩

/-- The BCD commands of a stream leave the same TERM and answer alike without the others. -/
theorem afterAll_filter_isBcd (is : List Instr) (s : State) :
    (afterAll is s).term = (afterAll (is.filter isBcd) s).term ∧ respsTo (is.filter isBcd) s.acc s.term =
      ((is.zip (respsTo is s.acc s.term)).filter fun q => isBcd q.1).map Prod.snd := by
  refine afterAll_filter (R := fun s u => s.term = u.term) (fun i s u hp h => ?_) (fun i s u hp h => ?_) is s s rfl
  · exact (termAfter_of_not_bcd hp s.term).trans h
  · exact ⟨congrArg (termAfter i) h, by rw [h, respTo_of_not_ckg (isCkg_eq_false_of_isBcd hp)]⟩

/-- The run of the words whose commands `p` picks is one pass over the picked commands. -/
theorem runWords_filter_decode (p : Instr → Bool) (ws : List CmdWord) (s : State) (hreset : s.resetIn = false) :
    runWords (ws.filter fun w => p (decode w)) s = .next (afterAll ((ws.map decode).filter p) s) := by
  rw [runWords_eq _ s hreset, List.filter_map]
  rfl

/-- Settles O27: `afterAll_filter` at each unit, with the unit's own state as what the two runs share. -/
theorem interleavingIsInvisibleToEachUnit : Obligations.InterleavingIsInvisibleToEachUnit := by
  intro s ws hreset
  obtain ⟨hacc, hckg⟩ := afterAll_filter_isCkg (ws.map decode) s
  obtain ⟨hterm, hbcd⟩ := afterAll_filter_isBcd (ws.map decode) s
  exact ⟨_, _, runWords_eq ws s hreset, afterAll_responses _ s,
    ⟨_, runWords_filter_decode isCkg ws s hreset, hacc.symm, by rw [afterAll_responses, hckg]⟩,
    ⟨_, runWords_filter_decode isBcd ws s hreset, hterm.symm, by rw [afterAll_responses, hbcd]⟩⟩

end Sys2Proof.Machine
end

section
/-! What ACC and TERM hold in the middle of a stream: the checksum of the bytes absorbed since the last `CK_INIT`
(10_state.md R17), and whether the BCD field in progress has met a terminator (R18). Each is one induction over the
commands, from any such state. -/

namespace Sys2Proof.Machine

/-! ## ACC -/

/-- ACC keeps up with the bytes absorbed. -/
theorem accAfter_fold_cksum (is : List Instr) (sofar : List Byte) :
    is.foldl (fun a i => accAfter i a) (cksum sofar) = cksum (absorbed sofar is) := by
  induction is generalizing sofar with
  | nil => rfl
  | cons i is ih =>
    cases i with
    | ckInit => exact ih []
    | ckAdd d => simpa [accAfter, absorbed, cksum_append_one] using ih (sofar ++ [d])
    | _ => exact ih sofar

/-- Settles O39: `accAfter_fold_cksum` from the ACC that the stream begins with. -/
theorem accIsChecksumOfBytesSinceLastInit : Obligations.AccIsChecksumOfBytesSinceLastInit := by
  intro s ws sofar hreset hacc
  refine ⟨_, runWords_eq ws s hreset, ?_⟩
  rw [afterAll_acc, hacc, accAfter_fold_cksum]

/-! ## TERM and the digits of a field -/

/-- Has the field met a terminator? -/
def fieldEnded (bs : List Byte) : Bool := decide (termNib ∈ nibblesOf bs)

theorem fieldEnded_iff (bs : List Byte) : fieldEnded bs = true ↔ 0xF#4 ∈ nibblesOf bs := decide_eq_true_iff

@[simp] theorem fieldEnded_nil : fieldEnded [] = false := rfl

/-- A terminator in a field of two parts is one in either part. -/
theorem fieldEnded_append (bs cs : List Byte) : fieldEnded (bs ++ cs) = (fieldEnded bs || fieldEnded cs) := by
  simp [fieldEnded, nibblesOf_append]

/-- A byte ends its field with either of its nibbles. -/
theorem fieldEnded_cons (b : Byte) (bs : List Byte) :
    fieldEnded (b :: bs) = (decide (hiNibble b = termNib) || decide (loNibble b = termNib) || fieldEnded bs) := by
  simp [fieldEnded, nibblesOf, eq_comm, Bool.or_assoc]

/-- The reference decoder takes bytes that follow a field for nothing once the field has ended (41_bcd.md R67). -/
theorem decodeBCD_append (bs cs : List Byte) :
    decodeBCD (bs ++ cs) = decodeBCD bs ++ if fieldEnded bs then [] else decodeBCD cs := by
  induction bs with
  | nil => rfl
  | cons b bs ih =>
    by_cases hhi : hiNibble b = 0xF#4
    · simp [decodeBCD, fieldEnded_cons, termNib, hhi]
    · by_cases hlo : loNibble b = 0xF#4 <;> simp [decodeBCD, fieldEnded_cons, termNib, hhi, hlo, ih]

/-- On one byte the decoder agrees with the reference, and meets a terminator exactly when the byte holds one. -/
theorem splitByte_eq_reference (d : Byte) :
    respDigits (splitByte d).1 = decodeBCD [d] ∧ (splitByte d).2 = fieldEnded [d] := by
  rcases splitByte_cases d with ⟨hhi, e⟩ | ⟨hhi, hlo, e⟩ | ⟨hhi, hlo, e⟩ <;>
    simp_all [decodeBCD, fieldEnded_cons, termNib]

/-- `BCD_BYTE` raises TERM exactly when its byte ends the field. -/
theorem termAfter_bcdByte (d : Byte) (bs : List Byte) :
    termAfter (.bcdByte d) (fieldEnded bs) = fieldEnded (bs ++ [d]) := by
  rw [fieldEnded_append, ← (splitByte_eq_reference d).2]
  rfl

/-- `BCD_BYTE` emits what its byte adds to the digits of the field. -/
theorem decodeBCD_append_bcdByte (d : Byte) (bs : List Byte) (a : Byte) :
    decodeBCD (bs ++ [d]) = decodeBCD bs ++ respDigits (respTo (.bcdByte d) a (fieldEnded bs)) := by
  rw [decodeBCD_append, ← (splitByte_eq_reference d).1]
  cases fieldEnded bs <;> rfl

/-! ## The fields of a stream -/

@[simp] theorem digitOutput_cons (r : Resp) (rs : List Resp) :
    digitOutput (r :: rs) = respDigits r ++ digitOutput rs := rfl

/-- From inside a field, its digits so far and those of the stream are the digits of all the stream's fields. -/
theorem digitOutput_respsTo (is : List Instr) (sofar : List Byte) (a : Byte) :
    decodeBCD sofar ++ digitOutput (respsTo is a (fieldEnded sofar)) =
      (bcdFields sofar is).flatMap decodeBCD := by
  induction is generalizing sofar a with
  | nil => simp [digitOutput, bcdFields]
  | cons i is ih =>
    cases i with
    | bcdInit => exact congrArg (decodeBCD sofar ++ ·) (ih [] a)
    | bcdByte d =>
      calc decodeBCD sofar ++ digitOutput (respsTo (.bcdByte d :: is) a (fieldEnded sofar))
          = decodeBCD (sofar ++ [d]) ++ digitOutput (respsTo is a (fieldEnded (sofar ++ [d]))) := by
            rw [decodeBCD_append_bcdByte d sofar a, ← termAfter_bcdByte, List.append_assoc]; rfl
        _ = (bcdFields (sofar ++ [d]) is).flatMap decodeBCD := ih (sofar ++ [d]) a
    | ckInit => exact ih sofar 0x00#8
    | ckAdd d => exact ih sofar (addByte a d)
    | _ => exact ih sofar a

/-- From inside a field, TERM ends as what the stream's last field makes of it. -/
theorem termAfter_fold_fieldEnded (is : List Instr) (sofar : List Byte) : ∃ f,
    (bcdFields sofar is).getLast? = some f ∧
      is.foldl (fun b i => termAfter i b) (fieldEnded sofar) = fieldEnded f := by
  induction is generalizing sofar with
  | nil => exact ⟨sofar, rfl, rfl⟩
  | cons i is ih =>
    cases i with
    | bcdInit =>
      obtain ⟨f, hlast, hterm⟩ := ih []
      exact ⟨f, by simp [bcdFields, List.getLast?_cons, hlast], hterm⟩
    | bcdByte d =>
      rw [List.foldl_cons, termAfter_bcdByte]
      exact ih (sofar ++ [d])
    | _ => exact ih sofar

/-- Settles O48: with TERM = 0 the stream begins as an empty field does. -/
theorem streamDigitsAreTheFieldsDigits : Obligations.StreamDigitsAreTheFieldsDigits := by
  intro s ws hreset hterm
  refine ⟨_, _, runWords_eq ws s hreset, afterAll_responses _ s, ?_, ?_⟩
  · rw [hterm]
    exact digitOutput_respsTo (ws.map decode) [] s.acc
  · obtain ⟨f, hlast, hended⟩ := termAfter_fold_fieldEnded (ws.map decode) []
    rw [fieldEnded_nil] at hended
    rw [afterAll_term, hterm, hended, hlast]
    simp [fieldEnded_iff]

/-! ## The optional outputs -/

/-- No digit's character wraps around. -/
theorem digitChar_toNat (n : Nibble) : (digitChar n).toNat = 0x30 + n.toNat := by
  have hlt := n.isLt
  simp only [digitChar, BitVec.toNat_add, BitVec.toNat_setWidth, BitVec.toNat_ofNat]
  omega

/-- Settles O13: `digitChar_toNat` at each digit; the marks are the comparisons themselves. -/
theorem digitCharacters : Obligations.DigitCharacters := fun r =>
  ⟨digitChar_toNat r.dg0, digitChar_toNat r.dg1, decide_eq_true_iff, decide_eq_true_iff⟩

end Sys2Proof.Machine
end

section
/-! The host's commands one after another (20_memory.md): what a second performance of a command changes (R30), and how the
effects of two streams compose (R33). -/

namespace Sys2Proof.Machine

/-! ## Performing a command twice -/

/-- Only `CK_ADD` goes on changing ACC when it is repeated. -/
theorem accAfter_accAfter {i : Instr} (hadd : ∀ d, i ≠ .ckAdd d) (a : Byte) :
    accAfter i (accAfter i a) = accAfter i a := by
  cases i with
  | ckAdd d => exact absurd rfl (hadd d)
  | _ => rfl

/-- No command changes TERM any further when it is repeated: `BCD_BYTE` raises what it has already raised. -/
theorem termAfter_termAfter (i : Instr) (b : Bool) : termAfter i (termAfter i b) = termAfter i b := by
  cases i with
  | bcdByte d => simp [termAfter]
  | _ => rfl

/-- Only `BCD_BYTE` may be answered otherwise when it is repeated, since it reads the TERM that it writes. -/
theorem respTo_accAfter_termAfter {i : Instr} (hbyte : ∀ d, i ≠ .bcdByte d) (a : Byte) (b : Bool) :
    respTo i (accAfter i a) (termAfter i b) = respTo i a b := by
  cases i with
  | bcdByte d => exact absurd rfl (hbyte d)
  | _ => rfl

/-- A second performance of an idempotent command only appends the first one's response again. -/
theorem after_after {i : Instr} (hadd : ∀ d, i ≠ .ckAdd d) (hbyte : ∀ d, i ≠ .bcdByte d) (s : State) :
    after i (after i s) =
      { after i s with responses := (after i s).responses ++ [respTo i s.acc s.term] } :=
  state_ext (accAfter_accAfter hadd s.acc) (termAfter_termAfter i s.term) rfl rfl
    (by simp [respTo_accAfter_termAfter hbyte])

/-- The wrap-around add of CKG leaves ACC as it was for the zero byte only. -/
theorem addByte_eq_left_iff (a d : Byte) : addByte a d = a ↔ d = 0x00 := by
  rw [addByte_eq_add]
  exact add_eq_left

/-- Settles O12: `after_after` for the idempotent commands, and `addByte_eq_left_iff` for `CK_ADD`. -/
theorem idempotentCommandsRepeat : Obligations.IdempotentCommandsRepeat := by
  refine ⟨fun i hadd hbyte s => ?_, fun d s => ?_⟩
  · exact ⟨after i s, respTo i s.acc s.term, exec_eq_after i s, after_responses i s, by
      rw [exec_eq_after, after_after hadd hbyte]⟩
  · exact ⟨after (.ckAdd d) s, exec_eq_after (.ckAdd d) s, addByte_eq_left_iff s.acc d⟩

/-! ## Two streams one after the other -/

/-- A stream runs to a state in which commands are still accepted and one response per word has been appended. -/
theorem runWords_responses (ws : List CmdWord) (s : State) (hreset : s.resetIn = false) : ∃ t rs,
    runWords ws s = .next t ∧ t.resetIn = false ∧ t.responses = s.responses ++ rs ∧ rs.length = ws.length :=
  ⟨afterAll (ws.map decode) s, respsTo (ws.map decode) s.acc s.term, runWords_eq ws s hreset,
    (afterAll_resetIn _ s).trans hreset, afterAll_responses _ s, by simp⟩

/-- A stream in two parts runs as its second part does from the state that the first one leaves. -/
theorem runWords_append {ws : List CmdWord} {s t : State} (hreset : s.resetIn = false)
    (hrun : runWords ws s = .next t) (vs : List CmdWord) : runWords (ws ++ vs) s = runWords vs t := by
  rw [runWords_eq ws s hreset] at hrun
  cases hrun
  rw [runWords_eq _ s hreset, runWords_eq vs _ (by simpa using hreset), List.map_append, afterAll_append]

/-- Settles O25: `runWords_responses` at each of the two streams, joined by `runWords_append`. -/
theorem streamsComposeWithOneResponsePerWord : Obligations.StreamsComposeWithOneResponsePerWord := by
  intro s ws vs hreset
  obtain ⟨t, rs, hfirst, hreset', hrs, hrsLength⟩ := runWords_responses ws s hreset
  obtain ⟨u, qs, hsecond, -, hqs, hqsLength⟩ := runWords_responses vs t hreset'
  have hboth : runWords (ws ++ vs) s = .next u := (runWords_append hreset hfirst vs).trans hsecond
  exact ⟨t, u, rs, qs, hfirst, hsecond, hboth, hrs, hrsLength, by rw [hqs, hrs], hqsLength⟩

end Sys2Proof.Machine
end

section
/-! The decoder row by row (30_encoding.md R42 to R46). `packWord_cases` splits the words along the rows of the opcode
table, and each row has one lemma that says what its words decode to; the round trip is read off from these. -/

namespace Sys2Proof

/-! ## The fields of a word as numbers (R40) -/

@[simp] theorem packWord_toNat_div (op : Nibble) (d : Byte) : (packWord op d).toNat / 256 = op.toNat := by
  have hd := d.isLt
  rw [packWord_toNat]
  omega

@[simp] theorem packWord_toNat_mod (op : Nibble) (d : Byte) : (packWord op d).toNat % 256 = d.toNat := by
  have hd := d.isLt
  rw [packWord_toNat]
  omega

theorem opField_toNat (w : CmdWord) : (opField w).toNat = w.toNat / 256 := by
  rw [← packWord_toNat_div (opField w) (dataField w), packWord_fields]

/-- Words of one op are equal when their data are. -/
@[simp] theorem packWord_inj_data (op : Nibble) (d e : Byte) : packWord op d = packWord op e ↔ d = e :=
  ⟨fun h => by simpa using congrArg dataField h, fun h => by rw [h]⟩

/-- The op bits and the data bits of a word do not overlap. -/
theorem packWord_eq_or (op : Nibble) (d : Byte) : packWord op d = packWord op 0x00#8 ||| d.setWidth 12 := by
  apply BitVec.eq_of_getLsbD_eq
  intro i hi
  rw [BitVec.getLsbD_or, packWord_getLsbD, packWord_getLsbD, BitVec.getLsbD_setWidth]
  by_cases h : i < 8
  · simp [h, hi]
  · simp [h, hi, BitVec.getLsbD_of_ge d i (by omega)]

/-! ## What each row decodes to (R42 to R44, R46) -/

@[simp] theorem decode_nop (d : Byte) : decode (packWord 0x0#4 d) = .nop := by simp [decode]

@[simp] theorem decode_ckInit (d : Byte) : decode (packWord 0x1#4 d) = .ckInit := by simp [decode]

@[simp] theorem decode_ckAdd (d : Byte) : decode (packWord 0x2#4 d) = .ckAdd d := by simp [decode]

@[simp] theorem decode_ckEnd (d : Byte) : decode (packWord 0x3#4 d) = .ckEnd := by simp [decode]

@[simp] theorem decode_bcdInit (d : Byte) : decode (packWord 0x4#4 d) = .bcdInit := by simp [decode]

@[simp] theorem decode_bcdByte (d : Byte) : decode (packWord 0x5#4 d) = .bcdByte d := by simp [decode]

theorem decode_reservedLow {op : Nibble} (hop : op = 0x6#4 ∨ op = 0x7#4) (d : Byte) :
    decode (packWord op d) = .reservedLow op := by
  rcases hop with rfl | rfl <;> simp [decode]

theorem decode_reservedHigh {op : Nibble} (hop : 8 ≤ op.toNat) (d : Byte) :
    decode (packWord op d) = .reservedHigh op := by
  unfold decode
  rw [opField_packWord]
  split
  case h_9 => rfl
  all_goals omega

/-- The op ranges of the eight rows leave no op out. -/
theorem op_mem_rows (op : Nibble) : op = 0x0#4 ∨ op = 0x1#4 ∨ op = 0x2#4 ∨ op = 0x3#4 ∨ op = 0x4#4 ∨ op = 0x5#4 ∨
    (op = 0x6#4 ∨ op = 0x7#4) ∨ 8 ≤ op.toNat := by
  revert op
  decide

/-- What holds of the words of each row of the opcode table holds of every word. -/
theorem packWord_cases {P : CmdWord → Prop} (nop : ∀ d, P (packWord 0x0#4 d)) (ckInit : ∀ d, P (packWord 0x1#4 d))
    (ckAdd : ∀ d, P (packWord 0x2#4 d)) (ckEnd : ∀ d, P (packWord 0x3#4 d)) (bcdInit : ∀ d, P (packWord 0x4#4 d))
    (bcdByte : ∀ d, P (packWord 0x5#4 d))
    (reservedLow : ∀ op d, op = 0x6#4 ∨ op = 0x7#4 → P (packWord op d))
    (reservedHigh : ∀ op d, 8 ≤ op.toNat → P (packWord op d)) (w : CmdWord) : P w := by
  rw [← packWord_fields w]
  rcases op_mem_rows (opField w) with h | h | h | h | h | h | h | h
  · exact h ▸ nop _
  · exact h ▸ ckInit _
  · exact h ▸ ckAdd _
  · exact h ▸ ckEnd _
  · exact h ▸ bcdInit _
  · exact h ▸ bcdByte _
  · exact reservedLow _ _ h
  · exact reservedHigh _ _ h

/-! ## The round trip -/

/-- The op range of the first RESERVED row. -/
theorem wellFormed_reservedLow_iff (op : Nibble) :
    (Instr.reservedLow op).wellFormed = true ↔ op = 0x6#4 ∨ op = 0x7#4 := by
  simp [Instr.wellFormed]

/-- The op range of the second RESERVED row. -/
theorem wellFormed_reservedHigh_iff (op : Nibble) : (Instr.reservedHigh op).wellFormed = true ↔ 8 ≤ op.toNat :=
  decide_eq_true_iff

theorem decode_encode {i : Instr} (h : i.wellFormed = true) : decode (encode i) = i := by
  cases i with
  | nop => exact decode_nop _
  | ckInit => exact decode_ckInit _
  | ckAdd d => exact decode_ckAdd d
  | ckEnd => exact decode_ckEnd _
  | bcdInit => exact decode_bcdInit _
  | bcdByte d => exact decode_bcdByte d
  | reservedLow op => exact decode_reservedLow ((wellFormed_reservedLow_iff op).mp h) _
  | reservedHigh op => exact decode_reservedHigh ((wellFormed_reservedHigh_iff op).mp h) _

theorem wellFormed_decode (w : CmdWord) : (decode w).wellFormed = true := by
  cases w using packWord_cases with
  | reservedLow op d hop => rw [decode_reservedLow hop, wellFormed_reservedLow_iff]; exact hop
  | reservedHigh op d hop => rw [decode_reservedHigh hop, wellFormed_reservedHigh_iff]; exact hop
  | _ => simp [Instr.wellFormed]

/-- The canonical word keeps the op, and of the data what the command takes as its operand (R44). -/
theorem encode_decode (w : CmdWord) : encode (decode w) =
    packWord (opField w) (if opField w = 0x2#4 ∨ opField w = 0x5#4 then dataField w else 0x00#8) := by
  cases w using packWord_cases with
  | reservedLow op d hop =>
    rw [decode_reservedLow hop, opField_packWord, if_neg (by rcases hop with rfl | rfl <;> decide)]
    rfl
  | reservedHigh op d hop =>
    rw [decode_reservedHigh hop, opField_packWord, if_neg (by rintro (rfl | rfl) <;> contradiction)]
    rfl
  | _ => simp [encode, opcodeOf, operandOf]

/-- The words that are canonical as `encode` writes them. -/
theorem encode_decode_eq_self_iff (w : CmdWord) :
    encode (decode w) = w ↔ w.toNat / 256 = 2 ∨ w.toNat / 256 = 5 ∨ w.toNat % 256 = 0 := by
  rw [encode_decode, ← packWord_fields w]
  simp only [opField_packWord, dataField_packWord, packWord_inj_data, packWord_toNat_div, packWord_toNat_mod]
  by_cases hop : opField w = 0x2#4 ∨ opField w = 0x5#4
  · rcases hop with h | h <;> simp [h]
  · rw [if_neg hop]
    simp only [BitVec.toNat_eq, BitVec.toNat_ofNat] at hop ⊢
    omega

/-- Settles O14: the round trip of each row, and the canonical words by their fields. -/
theorem decodeAndEncodeAgree : Obligations.DecodeAndEncodeAgree :=
  ⟨fun _ h => decode_encode h, wellFormed_decode, encode_decode_eq_self_iff⟩

/-- Settles O17: each of the four rows by its own lemma. -/
theorem ignoredDataChangesNothing : Obligations.IgnoredDataChangesNothing := by
  intro op d hop
  constructor
  · rcases hop with rfl | rfl | rfl | rfl <;> simp
  · rw [encode_decode, opField_packWord, if_neg (by rcases hop with rfl | rfl | rfl | rfl <;> decide)]
    rfl

/-- Settles O18: each vector is its row's lemma at the vector's data. -/
theorem decodingVectors : Obligations.DecodingVectors :=
  ⟨decode_nop 0x00, decode_ckInit 0xA5, decode_ckAdd 0xC3, decode_ckEnd 0x00, decode_bcdInit 0xFF, decode_bcdByte 0x12,
    decode_bcdByte 0xFF, decode_reservedLow (op := 0x6) (by decide) 0xFF,
    decode_reservedLow (op := 0x7) (by decide) 0xAB, decode_reservedHigh (op := 0x8) (by decide) 0x41,
    decode_reservedHigh (op := 0xF) (by decide) 0xFF⟩

/-! ## The opcode table as match and mask (R42, R43) -/

/-- A word masked in its op field is its masked op. -/
theorem packWord_and_of_dataField_eq_zero (op : Nibble) (d : Byte) {mask : CmdWord} (hmask : dataField mask = 0x00#8) :
    packWord op d &&& mask = packWord (op &&& opField mask) 0x00#8 := by
  rw [← packWord_and_op op (opField mask) d, ← hmask, packWord_fields]

/-- No row of the table looks at the data of a word. -/
theorem covers_packWord {row : OpcodeRow} (hrow : row ∈ opcodeTable) (op : Nibble) (d e : Byte) :
    row.covers (packWord op d) = row.covers (packWord op e) := by
  have hmask : dataField row.mask = 0x00#8 := by
    revert row
    decide
  simp only [OpcodeRow.covers, packWord_and_of_dataField_eq_zero op _ hmask]

/-- The row of a decoded command does not depend on the data. -/
theorem rowIndex_decode_packWord (op : Nibble) (d e : Byte) :
    rowIndex (decode (packWord op d)) = rowIndex (decode (packWord op e)) := by
  unfold decode
  simp only [opField_packWord]
  split <;> rfl

/-- The words with data 0x00, one for each op: the row of the decoded command is the row that covers the word. -/
theorem covers_iff_rowIndex_of_data_zero (op : Nibble) (k : Nat) (hk : k < opcodeTable.length) :
    opcodeTable[k].covers (packWord op 0x00#8) = true ↔ k = rowIndex (decode (packWord op 0x00#8)) := by
  revert op k
  decide

/-- Settles O15: neither side depends on the data, so the sixteen ops with data 0x00 decide it. -/
theorem eachWordHasExactlyOneTableRow : Obligations.EachWordHasExactlyOneTableRow := by
  intro w k row hrow
  obtain ⟨hk, rfl⟩ := List.getElem?_eq_some_iff.mp hrow
  rw [← packWord_fields w, covers_packWord (List.getElem_mem hk) (opField w) _ 0x00#8,
    rowIndex_decode_packWord (opField w) _ 0x00#8]
  exact covers_iff_rowIndex_of_data_zero (opField w) k hk

/-! ## How many words are defined (R46) -/

/-- The defined words are the first 1536. -/
theorem isReservedWord_ofNat {n : Nat} (hn : n < 4096) :
    isReservedWord (BitVec.ofNat 12 n) = decide (1536 ≤ n) := by
  rw [isReservedWord, opField_toNat, BitVec.toNat_ofNat, Nat.mod_eq_of_lt hn]
  exact decide_eq_decide.mpr (by omega)

/-- Settles O16: of the 4096 words the reserved ones are those after the first 1536. -/
theorem definedAndReservedWordCounts : Obligations.DefinedAndReservedWordCounts := by
  have hlow : ∀ n ∈ List.range 1536, isReservedWord (BitVec.ofNat 12 n) = false := fun n hn => by
    rw [List.mem_range] at hn
    rw [isReservedWord_ofNat (by omega), decide_eq_false (by omega)]
  have hhigh : ∀ n ∈ (List.range 2560).map (1536 + ·), isReservedWord (BitVec.ofNat 12 n) = true := fun n hn => by
    obtain ⟨m, hm, rfl⟩ := List.mem_map.mp hn
    rw [List.mem_range] at hm
    rw [isReservedWord_ofNat (by omega), decide_eq_true (by omega)]
  unfold Obligations.DefinedAndReservedWordCounts
  rw [show (4096 : Nat) = 1536 + 2560 from rfl, List.range_add, List.filter_append, List.filter_append,
    List.filter_eq_self.mpr (by simpa using hlow), List.filter_eq_nil_iff.mpr (by simpa using hhigh),
    List.filter_eq_nil_iff.mpr (by simpa using hlow), List.filter_eq_self.mpr hhigh]
  simp

end Sys2Proof
end

section
/-! Assembly text (30_encoding.md R48 to R51). A line is cut into its mnemonic and its operand text once, in
`assembleLine_statement`; a byte, a word and a list of bytes read back from what is printed for them; the disassembly
and the pseudo-instructions are put together from these. -/

namespace Sys2Proof.Machine

/-! ## Text with nothing to drop -/

/-- Is the character no quote, comment, blank or separator? -/
def isLiteralChar (c : Char) : Bool := decide (c ∉ ['\'', ';', ' ', '\t', ','])

/-- A literal character is one to the lexer, to the trimming and to the operand list. -/
theorem isLiteralChar_iff (c : Char) :
    isLiteralChar c = true ↔ c ≠ '\'' ∧ c ≠ ';' ∧ isBlankToken (.ch c) = false ∧ c ≠ ',' := by
  simp [isLiteralChar, isBlankToken, and_assoc]

theorem isLiteralChar_hexChar {n : Nat} (h : n < 16) : isLiteralChar (hexChar n) = true := by
  obtain ⟨-, hquote, hcomment, hspace, htab, hcomma, -⟩ := hexChar_reads_back n h
  simp [isLiteralChar, hquote, hcomment, hspace, htab, hcomma]

/-- Text without quotes and comments that begins and ends with a literal character, so that no blank is dropped. -/
structure IsCleanText (cs : List Char) : Prop where
  plain : ∀ c ∈ cs, c ≠ '\'' ∧ c ≠ ';'
  head : ∃ a ∈ cs.head?, isLiteralChar a = true
  last : ∃ b ∈ cs.getLast?, isLiteralChar b = true

/-- Literal characters are clean text. -/
theorem isCleanText_of_literal {cs : List Char} (hne : cs ≠ []) (h : ∀ c ∈ cs, isLiteralChar c = true) :
    IsCleanText cs where
  plain c hc := by
    obtain ⟨hquote, hcomment, -⟩ := (isLiteralChar_iff c).mp (h c hc)
    exact ⟨hquote, hcomment⟩
  head := ⟨cs.head hne, List.head?_eq_some_head hne, h _ (List.head_mem hne)⟩
  last := ⟨cs.getLast hne, List.getLast?_eq_some_getLast hne, h _ (List.getLast_mem hne)⟩

namespace IsCleanText

variable {cs ds : List Char}

theorem ne_nil (h : IsCleanText cs) : cs ≠ [] := by
  rintro rfl
  simpa using h.head

/-- Two clean texts joined by blanks or separators are clean. -/
theorem append (hcs : IsCleanText cs) (hds : IsCleanText ds) {sep : List Char}
    (hsep : ∀ c ∈ sep, c ≠ '\'' ∧ c ≠ ';') : IsCleanText (cs ++ (sep ++ ds)) where
  plain c hc := by
    rcases List.mem_append.mp hc with hc | hc
    · exact hcs.plain c hc
    · rcases List.mem_append.mp hc with hc | hc
      · exact hsep c hc
      · exact hds.plain c hc
  head := by
    obtain ⟨a, hmem, ha⟩ := hcs.head
    exact ⟨a, List.mem_head?_append_of_mem_head? hmem, ha⟩
  last := by
    obtain ⟨b, hmem, hb⟩ := hds.last
    exact ⟨b, List.mem_getLast?_append_of_mem_getLast? (List.mem_getLast?_append_of_mem_getLast? hmem), hb⟩

/-- Clean text has no blank at its ends to be trimmed. -/
theorem trimTokens_map_ch (h : IsCleanText cs) : trimTokens (cs.map .ch) = cs.map .ch := by
  obtain ⟨a, hhead, ha⟩ := h.head
  obtain ⟨b, hlast, hb⟩ := h.last
  obtain ⟨-, -, hblankA, -⟩ := (isLiteralChar_iff a).mp ha
  obtain ⟨-, -, hblankB, -⟩ := (isLiteralChar_iff b).mp hb
  have hcons : cs.map Token.ch = .ch a :: cs.tail.map .ch := congrArg _ (List.eq_cons_of_mem_head? hhead)
  have hconcat : cs.map Token.ch = cs.dropLast.map .ch ++ [.ch b] := by
    rw [← List.map_singleton, ← List.map_append, List.dropLast_append_getLast? b hlast]
  rw [hcons]
  exact trimTokens_eq_self hblankA hblankB (hcons.symm.trans hconcat)

/-- Clean text is a whole statement. -/
theorem statementTokens_eq (h : IsCleanText cs) : statementTokens cs = cs.map .ch := by
  have hcomment : (cs.map Token.ch).takeWhile (fun t => t != .ch ';') = cs.map .ch :=
    List.takeWhile_eq_self_iff.mpr (by simpa using fun c hc => (h.plain c hc).2)
  rw [statementTokens, lexLine_plain cs fun c hc => (h.plain c hc).1, hcomment, h.trimTokens_map_ch]

end IsCleanText

/-! ## One line -/

/-- A literal word, a space and clean text are a mnemonic and its operand text (R48). -/
theorem assembleLine_statement {name rest : List Char} (hname : ∀ c ∈ name, isLiteralChar c = true) (hne : name ≠ [])
    (hrest : IsCleanText rest) :
    assembleLine (name ++ ' ' :: rest) = (parseStatement name (rest.map .ch)).map expandLine := by
  have hline : statementTokens (name ++ ' ' :: rest) = name.map .ch ++ .ch ' ' :: rest.map .ch := by
    have hclean : IsCleanText (name ++ ' ' :: rest) :=
      (isCleanText_of_literal hne hname).append hrest (sep := [' ']) (by simp)
    rw [hclean.statementTokens_eq, List.map_append, List.map_cons]
  have hblank : ∀ t ∈ name.map Token.ch, (!isBlankToken t) = true := by
    intro t ht
    obtain ⟨c, hc, rfl⟩ := List.mem_map.mp ht
    obtain ⟨-, -, h, -⟩ := (isLiteralChar_iff c).mp (hname c hc)
    simp [h]
  have htake : (statementTokens (name ++ ' ' :: rest)).takeWhile (fun t => !isBlankToken t) = name.map .ch := by
    rw [hline, List.takeWhile_append_of_pos hblank]
    simp [isBlankToken]
  have hdrop : (statementTokens (name ++ ' ' :: rest)).dropWhile (fun t => !isBlankToken t) =
      .ch ' ' :: rest.map .ch := by
    rw [hline, List.dropWhile_append_of_pos hblank]
    simp [isBlankToken]
  rw [assembleLine, parseLine, htake, hdrop, charsOf_map_ch, trimTokens_cons_blank _ rfl, hrest.trimTokens_map_ch,
    if_neg (by simp [hline])]
  rfl

/-! ## Numbers in hex -/

/-- Printed hex digits read back as their values. -/
theorem mapM_hexValue_hexChar {ds : List Nat} (h : ∀ d ∈ ds, d < 16) : (ds.map hexChar).mapM hexValue = some ds := by
  induction ds with
  | nil => rfl
  | cons d ds ih =>
    rw [List.map_cons, List.mapM_cons, (hexChar_reads_back d (h d (by simp))).1, ih fun e he => h e (by simp [he])]
    rfl

/-- A printed hex literal is made of literal characters. -/
theorem isLiteralChar_hexLiteral {ds : List Nat} (h : ∀ d ∈ ds, d < 16) :
    ∀ c ∈ '0' :: 'x' :: ds.map hexChar, isLiteralChar c = true := by
  intro c hc
  rcases List.mem_cons.mp hc with rfl | hc
  · decide
  rcases List.mem_cons.mp hc with rfl | hc
  · decide
  obtain ⟨d, hd, rfl⟩ := List.mem_map.mp hc
  exact isLiteralChar_hexChar (h d hd)

/-- The two digits of a byte. -/
def byteDigits (b : Byte) : List Nat := [b.toNat / 16, b.toNat % 16]

theorem byteDigits_lt (b : Byte) : ∀ d ∈ byteDigits b, d < 16 := by
  have hb := b.isLt
  simp only [byteDigits, List.mem_cons, List.not_mem_nil, or_false, forall_eq_or_imp, forall_eq]
  omega

theorem ofNat_byteDigits (b : Byte) : BitVec.ofNat 8 (digitsToNat 16 (byteDigits b)) = b := by
  apply BitVec.eq_of_toNat_eq
  simp only [digitsToNat, byteDigits, List.foldl_cons, List.foldl_nil, BitVec.toNat_ofNat]
  omega

theorem isLiteralChar_byteText (b : Byte) : ∀ c ∈ byteText b, isLiteralChar c = true :=
  isLiteralChar_hexLiteral (byteDigits_lt b)

theorem isCleanText_byteText (b : Byte) : IsCleanText (byteText b) :=
  isCleanText_of_literal (List.cons_ne_nil _ _) (isLiteralChar_byteText b)

/-- A printed byte reads back (R48). -/
theorem parseByte_byteText (b : Byte) : parseByte ((byteText b).map .ch) = some b :=
  calc parseByte ((byteText b).map .ch)
      = hexByte ((byteDigits b).map hexChar) := rfl
    _ = some b := by
      rw [hexByte, if_pos (by rfl), mapM_hexValue_hexChar (byteDigits_lt b), Option.map_some, ofNat_byteDigits]

/-- The three digits of a command word. -/
def wordDigits (w : CmdWord) : List Nat := [w.toNat / 256, w.toNat / 16 % 16, w.toNat % 16]

theorem wordDigits_lt (w : CmdWord) : ∀ d ∈ wordDigits w, d < 16 := by
  have hw := w.isLt
  simp only [wordDigits, List.mem_cons, List.not_mem_nil, or_false, forall_eq_or_imp, forall_eq]
  omega

theorem ofNat_wordDigits (w : CmdWord) : BitVec.ofNat 12 (digitsToNat 16 (wordDigits w)) = w := by
  apply BitVec.eq_of_toNat_eq
  simp only [digitsToNat, wordDigits, List.foldl_cons, List.foldl_nil, BitVec.toNat_ofNat]
  omega

/-- A printed word reads back (R48). -/
theorem parseWord_wordDigits (w : CmdWord) :
    parseWord (('0' :: 'x' :: (wordDigits w).map hexChar).map .ch) = some w := by
  rw [parseWord, charsOf_map_ch]
  calc _
      = ((wordDigits w).map hexChar |>.mapM hexValue).map (fun ds => BitVec.ofNat 12 (digitsToNat 16 ds)) := rfl
    _ = some w := by rw [mapM_hexValue_hexChar (wordDigits_lt w), Option.map_some, ofNat_wordDigits]

/-! ## Disassembled lines (R51) -/

theorem assembleLine_ckAdd (d : Byte) :
    assembleLine ("CK_ADD ".toList ++ byteText d) = some [packWord 0x2#4 d] := by
  have hline := assembleLine_statement (name := "CK_ADD".toList) (by simp [isLiteralChar]) (by simp)
    (isCleanText_byteText d)
  refine hline.trans ?_
  simp [parseStatement, parseByte_byteText, expandLine, encode, opcodeOf, operandOf]

theorem assembleLine_bcdByte (d : Byte) :
    assembleLine ("BCD_BYTE ".toList ++ byteText d) = some [packWord 0x5#4 d] := by
  have hline := assembleLine_statement (name := "BCD_BYTE".toList) (by simp [isLiteralChar]) (by simp)
    (isCleanText_byteText d)
  refine hline.trans ?_
  simp [parseStatement, parseByte_byteText, expandLine, encode, opcodeOf, operandOf]

theorem assembleLine_wordText (w : CmdWord) : assembleLine (wordText w) = some [w] := by
  have hline := assembleLine_statement (name := ".word".toList) (by simp [isLiteralChar]) (by simp)
    (isCleanText_of_literal (List.cons_ne_nil _ _) (isLiteralChar_hexLiteral (wordDigits_lt w)))
  refine hline.trans ?_
  simp only [parseStatement, parseWord_wordDigits]
  simp [expandLine]

/-! ## Words and their canonical words (R51) -/

theorem canonicalWord_packWord (op : Nibble) (d : Byte) : canonicalWord (packWord op d) =
    if 6 ≤ op.toNat then packWord op d else encode (decode (packWord op d)) := by
  simp [canonicalWord, isReservedWord]

theorem canonicalWord_reservedLow {op : Nibble} (hop : op = 0x6#4 ∨ op = 0x7#4) (d : Byte) :
    canonicalWord (packWord op d) = packWord op d := by
  rw [canonicalWord_packWord, if_pos (by rcases hop with rfl | rfl <;> decide)]

theorem canonicalWord_reservedHigh {op : Nibble} (hop : 8 ≤ op.toNat) (d : Byte) :
    canonicalWord (packWord op d) = packWord op d := by
  rw [canonicalWord_packWord, if_pos (by omega)]

theorem assembleLine_disassemble (w : CmdWord) : assembleLine (disassemble w) = some [canonicalWord w] := by
  cases w using packWord_cases with
  | nop d => rw [disassemble, canonicalWord_packWord, decode_nop]; rfl
  | ckInit d => rw [disassemble, canonicalWord_packWord, decode_ckInit]; rfl
  | ckAdd d => rw [disassemble, canonicalWord_packWord, decode_ckAdd]; exact assembleLine_ckAdd d
  | ckEnd d => rw [disassemble, canonicalWord_packWord, decode_ckEnd]; rfl
  | bcdInit d => rw [disassemble, canonicalWord_packWord, decode_bcdInit]; rfl
  | bcdByte d => rw [disassemble, canonicalWord_packWord, decode_bcdByte]; exact assembleLine_bcdByte d
  | reservedLow op d hop =>
    rw [disassemble, canonicalWord_reservedLow hop, decode_reservedLow hop]
    exact assembleLine_wordText _
  | reservedHigh op d hop =>
    rw [disassemble, canonicalWord_reservedHigh hop, decode_reservedHigh hop]
    exact assembleLine_wordText _

theorem disassemble_canonicalWord (w : CmdWord) : disassemble (canonicalWord w) = disassemble w := by
  cases w using packWord_cases with
  | reservedLow op d hop => rw [canonicalWord_reservedLow hop]
  | reservedHigh op d hop => rw [canonicalWord_reservedHigh hop]
  | _ => simp [canonicalWord_packWord, disassemble, encode, opcodeOf, operandOf]

theorem canonicalWord_eq_self_iff (w : CmdWord) : canonicalWord w = w ↔
    6 ≤ w.toNat / 256 ∨ w.toNat / 256 = 2 ∨ w.toNat / 256 = 5 ∨ w.toNat % 256 = 0 := by
  rw [canonicalWord, isReservedWord, opField_toNat]
  by_cases hreserved : 6 ≤ w.toNat / 256
  · simp [hreserved]
  · simp [hreserved, encode_decode_eq_self_iff]

/-- Settles O20: each row's text is read back by the rules for its mnemonic, and is that of the row's canonical word. -/
theorem disassemblyReassembles : Obligations.DisassemblyReassembles :=
  ⟨assembleLine_disassemble, disassemble_canonicalWord, canonicalWord_eq_self_iff⟩

/-! ## Lists of bytes (R49, R50) -/

/-- One piece of text without a separator is one byte. -/
theorem parseBytes_singleton {ts : List Token} (hne : ts ≠ []) (h : ∀ t ∈ ts, t ≠ .ch ',') :
    parseBytes ts = (parseByte (trimTokens ts)).map fun b => [b] := by
  rw [parseBytes, if_neg hne, splitOnSep_none _ ts h]
  cases hbyte : parseByte (trimTokens ts) <;> simp [hbyte]

/-- The first separator ends the first byte. -/
theorem parseBytes_append_sep {ts us : List Token} (hne : us ≠ []) (h : ∀ t ∈ ts, t ≠ .ch ',') :
    parseBytes (ts ++ .ch ',' :: us) =
      (parseByte (trimTokens ts)).bind fun b => (parseBytes us).map fun bs => b :: bs := by
  rw [parseBytes, parseBytes, if_neg (by simp), if_neg hne, splitOnSep_append _ ts us h, List.mapM_cons]
  simp [Option.map_eq_bind]

/-- Text has a first piece. -/
theorem splitOnSep_ne_nil {α : Type} [DecidableEq α] (sep : α) (xs : List α) : splitOnSep sep xs ≠ [] := by
  cases xs with
  | nil => simp [splitOnSep]
  | cons x xs =>
    rw [splitOnSep]
    split
    · simp
    · split <;> simp

/-- A blank before a list of bytes is dropped. -/
theorem parseBytes_cons_blank {ts : List Token} (hne : ts ≠ []) :
    parseBytes (.ch ' ' :: ts) = parseBytes ts := by
  obtain ⟨g, gs, hsplit⟩ := List.exists_cons_of_ne_nil (splitOnSep_ne_nil (.ch ',') ts)
  have hblank : splitOnSep (.ch ',') (.ch ' ' :: ts) = (.ch ' ' :: g) :: gs := by simp [splitOnSep, hsplit]
  rw [parseBytes, parseBytes, if_neg (by simp), if_neg hne, hblank, hsplit, List.mapM_cons, List.mapM_cons,
    trimTokens_cons_blank g rfl]

theorem operandsText_cons_cons (b c : Byte) (bs : List Byte) :
    operandsText (b :: c :: bs) = byteText b ++ ([',', ' '] ++ operandsText (c :: bs)) :=
  List.append_assoc _ _ _

theorem isCleanText_operandsText (b : Byte) (bs : List Byte) : IsCleanText (operandsText (b :: bs)) := by
  induction bs generalizing b with
  | nil => exact isCleanText_byteText b
  | cons c bs ih =>
    rw [operandsText_cons_cons]
    exact (isCleanText_byteText b).append (ih c) (by simp)

/-- A printed byte holds no separator. -/
theorem byteText_ne_comma (b : Byte) : ∀ t ∈ (byteText b).map Token.ch, t ≠ .ch ',' := by
  intro t ht
  obtain ⟨c, hc, rfl⟩ := List.mem_map.mp ht
  obtain ⟨-, -, -, hcomma⟩ := (isLiteralChar_iff c).mp (isLiteralChar_byteText b c hc)
  simpa using hcomma

/-- A printed byte reads back as one piece of a list. -/
theorem parseByte_trimTokens_byteText (b : Byte) : parseByte (trimTokens ((byteText b).map .ch)) = some b := by
  rw [(isCleanText_byteText b).trimTokens_map_ch, parseByte_byteText]

/-- Printed bytes read back. -/
theorem parseBytes_operandsText (b : Byte) (bs : List Byte) :
    parseBytes ((operandsText (b :: bs)).map .ch) = some (b :: bs) := by
  induction bs generalizing b with
  | nil =>
    rw [operandsText, parseBytes_singleton (by simp [byteText]) (byteText_ne_comma b), parseByte_trimTokens_byteText]
    rfl
  | cons c bs ih =>
    have hne : (operandsText (c :: bs)).map Token.ch ≠ [] := by simpa using (isCleanText_operandsText c bs).ne_nil
    calc parseBytes ((operandsText (b :: c :: bs)).map .ch)
        = parseBytes ((byteText b).map .ch ++ .ch ',' :: .ch ' ' :: (operandsText (c :: bs)).map .ch) := by
          rw [operandsText_cons_cons, List.map_append]; rfl
      _ = some (b :: c :: bs) := by
          rw [parseBytes_append_sep (List.cons_ne_nil _ _) (byteText_ne_comma b), parseByte_trimTokens_byteText,
            parseBytes_cons_blank hne, ih c]
          rfl

/-- Printed bytes are no hex string in double quotes. -/
theorem parseFrameOperand_operandsText (b : Byte) (bs : List Byte) :
    parseFrameOperand ((operandsText (b :: bs)).map .ch) = some (b :: bs) := by
  have hzero : ∃ cs, operandsText (b :: bs) = '0' :: cs := by
    cases bs with
    | nil => exact ⟨_, rfl⟩
    | cons c bs => exact ⟨_, rfl⟩
  obtain ⟨cs, hcs⟩ := hzero
  have hplain : parseFrameOperand ((operandsText (b :: bs)).map .ch) =
      parseBytes ((operandsText (b :: bs)).map .ch) := by
    rw [parseFrameOperand, charsOf_map_ch, hcs]
    rfl
  rw [hplain, parseBytes_operandsText]

/-! ## The pseudo-instructions (R49, R50) -/

theorem assembleLine_ckFrame (bs : List Byte) :
    assembleLine ("CK_FRAME ".toList ++ operandsText bs) = some ((ckFrame bs).map encode) := by
  cases bs with
  | nil => rfl
  | cons b bs =>
    have hline := assembleLine_statement (name := "CK_FRAME".toList) (by simp [isLiteralChar]) (by simp)
      (isCleanText_operandsText b bs)
    refine hline.trans ?_
    simp [parseStatement, parseFrameOperand_operandsText, expandLine]

theorem assembleLine_bcdDecode (bs : List Byte) :
    assembleLine ("BCD_DECODE ".toList ++ operandsText bs) = some ((bcdDecode bs).map encode) := by
  cases bs with
  | nil => rfl
  | cons b bs =>
    have hline := assembleLine_statement (name := "BCD_DECODE".toList) (by simp [isLiteralChar]) (by simp)
      (isCleanText_operandsText b bs)
    refine hline.trans ?_
    simp [parseStatement, parseBytes_operandsText, expandLine]

theorem encode_ckAdd (d : Byte) : encode (.ckAdd d) = 0x200#12 ||| d.setWidth 12 := packWord_eq_or 0x2#4 d

theorem encode_bcdByte (d : Byte) : encode (.bcdByte d) = 0x500#12 ||| d.setWidth 12 := packWord_eq_or 0x5#4 d

/-- Settles O21: the lines assemble to their expansions, and each command of an expansion has its word. -/
theorem pseudoInstructionTextExpands : Obligations.PseudoInstructionTextExpands := by
  intro bs
  rw [assembleLine_ckFrame, assembleLine_bcdDecode]
  simp only [ckFrame, bcdDecode, List.map_append, List.map_map, Function.comp_def, encode_ckAdd, encode_bcdByte]
  exact ⟨rfl, rfl⟩

end Sys2Proof.Machine
end

section
/-! Unit CKG command by command (40_checksum.md R52 to R54): the words of each command by their masked op, and what the
command makes of the whole state. -/

namespace Sys2Proof.Machine

/-! ## Words by their masked op (R42) -/

/-- Decoding keeps the op of every word, a reserved one included. -/
@[simp] theorem opcodeOf_decode (w : CmdWord) : opcodeOf (decode w) = opField w := by
  cases w using packWord_cases with
  | reservedLow op d hop => rw [decode_reservedLow hop, opField_packWord]; rfl
  | reservedHigh op d hop => rw [decode_reservedHigh hop, opField_packWord]; rfl
  | _ => simp [opcodeOf]

/-- The mask of a four-bit op compares the op fields. -/
theorem and_opMask_eq_iff (w : CmdWord) (op : Nibble) : w &&& 0xF00#12 = packWord op 0x00#8 ↔ opField w = op := by
  have hmask : w &&& 0xF00#12 = packWord (opField w) 0x00#8 := by
    have hand := packWord_and_op (opField w) 0xF#4 (dataField w)
    rw [packWord_fields, show (0xF#4 : Nibble) = BitVec.allOnes 4 from rfl, BitVec.and_allOnes] at hand
    exact hand
  rw [hmask]
  exact ⟨fun h => by simpa using congrArg opField h, fun h => by rw [h]⟩

/-- A row whose words all decode to one command holds exactly that command's words (R44). -/
theorem decode_eq_iff_and_opMask {op : Nibble} {i : Instr} (hrow : ∀ d, decode (packWord op d) = i) (w : CmdWord) :
    decode w = i ↔ w &&& 0xF00#12 = packWord op 0x00#8 := by
  rw [and_opMask_eq_iff]
  constructor
  · intro h
    rw [← opcodeOf_decode, h, ← hrow 0x00#8, opcodeOf_decode, opField_packWord]
  · intro h
    rw [← packWord_fields w, h, hrow]

/-- The data field is the low byte of the word. -/
theorem dataField_eq_setWidth (w : CmdWord) : dataField w = w.setWidth 8 := by
  apply BitVec.eq_of_toNat_eq
  simp [dataField]

theorem decode_of_and_opMask_ckAdd {w : CmdWord} (h : w &&& 0xF00#12 = 0x200#12) :
    decode w = .ckAdd (w.setWidth 8) := by
  have hop : opField w = 0x2#4 := (and_opMask_eq_iff w 0x2#4).mp h
  rw [← dataField_eq_setWidth, ← decode_ckAdd, ← hop, packWord_fields]

theorem and_opMask_of_decode_ckAdd {w : CmdWord} {d : Byte} (h : decode w = .ckAdd d) :
    w &&& 0xF00#12 = 0x200#12 :=
  (and_opMask_eq_iff w 0x2#4).mpr (by rw [← opcodeOf_decode, h]; rfl)

/-! ## The state after a command -/

theorem after_ckInit (s : State) :
    after .ckInit s = { s with acc := 0x00#8, responses := s.responses ++ [defaultResp] } := rfl

theorem after_ckAdd (d : Byte) (s : State) : after (.ckAdd d) s =
    { s with acc := s.acc + d, responses := s.responses ++ [emitFrame d false defaultResp] } := by
  rw [← addByte_eq_add]
  rfl

theorem after_ckEnd (s : State) :
    after .ckEnd s = { s with responses := s.responses ++ [emitFrame s.acc true defaultResp] } := rfl

/-- Settles O2: every word of the row is `CK_INIT`, and `after_ckInit` is its effect. -/
theorem ckInitClearsAcc : Obligations.CkInitClearsAcc :=
  ⟨decode_eq_iff_and_opMask decode_ckInit, rfl, fun s => by rw [exec_eq_after, after_ckInit]; rfl⟩

/-- Settles O3: the row's words carry the byte in their data field, and `after_ckAdd` is the effect. -/
theorem ckAddAbsorbsAndEmitsByte : Obligations.CkAddAbsorbsAndEmitsByte :=
  ⟨fun _ h => decode_of_and_opMask_ckAdd h, fun _ _ h => and_opMask_of_decode_ckAdd h, encode_ckAdd,
    fun d s => by rw [exec_eq_after, after_ckAdd]; rfl⟩

/-- Settles O4: every word of the row is `CK_END`, and `after_ckEnd` is its effect. -/
theorem ckEndEmitsAcc : Obligations.CkEndEmitsAcc :=
  ⟨decode_eq_iff_and_opMask decode_ckEnd, rfl, fun s => by rw [exec_eq_after, after_ckEnd]; rfl⟩

end Sys2Proof.Machine
end

section
/-! The laws of CKG (40_checksum.md R55 to R62). The checksum is additive over concatenation; a run of `CK_ADD` adds the
checksum of its bytes to ACC and passes the bytes on (`afterAll_map_ckAdd`), and frames are put together from that. -/

namespace Sys2Proof.Machine

/-! ## The checksum function (R58 to R60) -/

theorem cksum_toNat (bs : List Byte) : (cksum bs).toNat = (bs.map BitVec.toNat).sum % 256 := by
  simp [cksum]

/-- The split law (R60), in the 8-bit add of ACC. -/
theorem cksum_append (xs ys : List Byte) : cksum (xs ++ ys) = cksum xs + cksum ys := by
  apply BitVec.eq_of_toNat_eq
  rw [BitVec.toNat_add, cksum_toNat, cksum_toNat, cksum_toNat, List.map_append, List.sum_append]
  exact Nat.add_mod _ _ _

@[simp] theorem cksum_singleton (b : Byte) : cksum [b] = b := by
  apply BitVec.eq_of_toNat_eq
  simpa [cksum_toNat] using b.isLt

theorem cksum_cons (b : Byte) (bs : List Byte) : cksum (b :: bs) = b + cksum bs := by
  rw [← List.singleton_append, cksum_append, cksum_singleton]

/-- The checksum does not see the order of the bytes (R58). -/
theorem cksum_eq_of_perm {bs cs : List Byte} (h : bs.Perm cs) : cksum bs = cksum cs := by
  rw [cksum, cksum, (h.map BitVec.toNat).sum_eq]

/-- 256 equal bytes add up to a multiple of 256 (R59). -/
theorem cksum_replicate_256 (b : Byte) : cksum (List.replicate 256 b) = 0x00 := by
  apply BitVec.eq_of_toNat_eq
  rw [cksum_toNat, List.map_replicate, List.sum_replicate, smul_eq_mul, Nat.mul_mod_right]
  rfl

/-- A byte and its negation modulo 256 cancel (R59). -/
theorem cksum_pair_neg (b : Byte) : cksum [b, BitVec.ofNat 8 ((256 - b.toNat) % 256)] = 0x00 := by
  have hneg : BitVec.ofNat 8 ((256 - b.toNat) % 256) = -b := by
    apply BitVec.eq_of_toNat_eq
    rw [BitVec.toNat_neg, BitVec.toNat_ofNat, Nat.mod_mod]
  rw [cksum_cons, cksum_singleton, hneg]
  exact add_neg_cancel b

/-- Settles O37: the response to `CK_ADD` does not depend on the sum, and `cksum` wraps as the lemmas above say. -/
theorem checksumWrapsModulo256 : Obligations.ChecksumWrapsModulo256 := by
  refine ⟨fun d s => ?_, fun bs => ?_, cksum_replicate_256, cksum_pair_neg⟩
  · refine ⟨_, emitFrame d false defaultResp, exec_eq_after _ s, ?_, after_responses _ s, rfl⟩
    rw [after_ckAdd]
    exact BitVec.toNat_add _ _
  · rw [cksum_append, cksum_singleton]
    exact add_zero _

/-! ## Runs of commands -/

/-- The run of well-formed commands is one pass over them. -/
theorem runCommands_eq {is : List Instr} {s : State} (hwf : is.all Instr.wellFormed = true)
    (hreset : s.resetIn = false) : runCommands is s = .next (afterAll is s) := by
  have hdecode : (is.map encode).map decode = is := by
    rw [List.map_map]
    exact (List.map_congr_left fun i hi => decode_encode (List.all_eq_true.mp hwf i hi)).trans (List.map_id' is)
  rw [runCommands, runWords_eq _ s hreset, hdecode]

/-- A run of `CK_ADD` adds the checksum of its bytes to ACC and passes each of them on. -/
theorem afterAll_map_ckAdd (bs : List Byte) (s : State) : afterAll (bs.map Instr.ckAdd) s =
    { s with
      acc := s.acc + cksum bs
      responses := s.responses ++ bs.map fun d => emitFrame d false defaultResp } := by
  induction bs generalizing s with
  | nil => simp
  | cons d bs ih => simp [ih, after_ckAdd, cksum_cons, BitVec.add_assoc]

/-- `k` `CK_END` commands emit the same ACC `k` times. -/
theorem afterAll_replicate_ckEnd (k : Nat) (s : State) : afterAll (List.replicate k .ckEnd) s =
    { s with responses := s.responses ++ List.replicate k (emitFrame s.acc true defaultResp) } := by
  induction k generalizing s with
  | zero => simp
  | succ k ih => simp [List.replicate_succ, ih, after_ckEnd]

/-- Settles O40: `afterAll_replicate_ckEnd` at the port. -/
theorem repeatedCkEndRepeatsChecksum : Obligations.RepeatedCkEndRepeatsChecksum := by
  intro s k hreset
  rw [runCommands_eq (by simp [Instr.wellFormed]) hreset, afterAll_replicate_ckEnd]
  rfl

/-- The responses to `CK_INIT` and the `CK_ADD` commands of the bytes. -/
def absorbResps (bs : List Byte) : List Resp := defaultResp :: bs.map fun d => emitFrame d false defaultResp

/-- The responses to `CK_FRAME` (R55). -/
def frameResps (bs : List Byte) : List Resp := absorbResps bs ++ [emitFrame (cksum bs) true defaultResp]

/-- After `CK_INIT` the `CK_ADD` commands leave the checksum of their bytes, whatever ACC was before. -/
theorem afterAll_ckInit_map_ckAdd (bs : List Byte) (s : State) :
    afterAll ([.ckInit] ++ bs.map Instr.ckAdd) s =
      { s with acc := cksum bs, responses := s.responses ++ absorbResps bs } := by
  simp [after_ckInit, afterAll_map_ckAdd, absorbResps]

/-- `CK_FRAME` leaves the checksum of its bytes in ACC, having emitted it last. -/
theorem afterAll_ckFrame (bs : List Byte) (s : State) :
    afterAll (ckFrame bs) s = { s with acc := cksum bs, responses := s.responses ++ frameResps bs } := by
  rw [ckFrame, afterAll_append, afterAll_ckInit_map_ckAdd]
  simp [after_ckEnd, frameResps]

/-- The run of `CK_FRAME`. -/
theorem runCommands_ckFrame (bs : List Byte) {s : State} (hreset : s.resetIn = false) :
    runCommands (ckFrame bs) s = .next { s with acc := cksum bs, responses := s.responses ++ frameResps bs } := by
  rw [runCommands_eq (by simp [ckFrame, Instr.wellFormed]) hreset, afterAll_ckFrame]

/-! ## The frame output (R55 to R58, R62) -/

/-- The responses to absorbing commands carry the bytes themselves. -/
theorem frameOutput_absorbResps (bs : List Byte) : frameOutput (absorbResps bs) = bs := by
  simp [frameOutput, absorbResps, List.filter_map, Function.comp_def]

/-- No byte is marked as the last one before `CK_END`. -/
theorem frameMarks_absorbResps (bs : List Byte) : frameMarks (absorbResps bs) = List.replicate bs.length false := by
  simp [frameMarks, absorbResps, List.filter_map, Function.comp_def]

theorem frameOutput_frameResps (bs : List Byte) : frameOutput (frameResps bs) = bs ++ [cksum bs] := by
  rw [frameResps, frameOutput_append, frameOutput_absorbResps]
  rfl

theorem frameMarks_frameResps (bs : List Byte) :
    frameMarks (frameResps bs) = List.replicate bs.length false ++ [true] := by
  rw [frameResps, frameMarks_append, frameMarks_absorbResps]
  rfl

/-- Settles O34: the run of `CK_FRAME` and the outputs of its responses. -/
theorem ckFrameEmitsPayloadThenChecksum : Obligations.CkFrameEmitsPayloadThenChecksum := by
  intro s bs hreset
  exact ⟨frameResps bs, runCommands_ckFrame bs hreset, frameOutput_frameResps bs, frameMarks_frameResps bs,
    by simp [frameOutput_frameResps]⟩

/-- Settles O35: the frame output determines payload and checksum, so `p` is the payload and `c` its checksum. -/
theorem recomputingOverFrameGivesLastByte : Obligations.RecomputingOverFrameGivesLastByte := by
  intro s s' bs p c t rs hreset hreset' hrun hresponses hframe
  rw [runCommands_ckFrame bs hreset] at hrun
  cases hrun
  obtain rfl : frameResps bs = rs := List.append_cancel_left hresponses
  rw [frameOutput_frameResps] at hframe
  obtain ⟨rfl, hlast⟩ := List.append_inj' hframe rfl
  exact ⟨_, runCommands_ckFrame bs hreset', List.singleton_inj.mp hlast⟩

/-- Settles O36: each order of the bytes leaves its own checksum, and the two are equal. -/
theorem checksumIgnoresByteOrder : Obligations.ChecksumIgnoresByteOrder := by
  intro s bs cs hreset hperm
  have hrun (ds : List Byte) : runCommands ([.ckInit] ++ ds.map Instr.ckAdd) s =
      .next { s with acc := cksum ds, responses := s.responses ++ absorbResps ds } := by
    rw [runCommands_eq (by simp [Instr.wellFormed]) hreset, afterAll_ckInit_map_ckAdd]
  have hsum : cksum bs = cksum cs := cksum_eq_of_perm hperm
  exact ⟨hsum, _, _, absorbResps bs, absorbResps cs, hrun bs, hrun cs, hsum, rfl, frameOutput_absorbResps bs, rfl,
    frameOutput_absorbResps cs⟩

/-- Settles O41: the bytes after the frame add to the ACC that it left, and `CK_END` emits the sum. -/
theorem frameWithoutInitContinuesOldSum : Obligations.FrameWithoutInitContinuesOldSum := by
  intro s bs cs hreset
  refine ⟨_, runCommands_eq (by simp [ckFrame, Instr.wellFormed]) hreset, ?_⟩
  rw [afterAll_append, afterAll_append, afterAll_ckFrame, afterAll_map_ckAdd, ← cksum_append]
  exact ⟨rfl, List.getLast?_concat⟩

/-! ## A frame in parts (R60) -/

/-- A word that is neither `CK_INIT` nor `CK_ADD` does not write ACC. -/
theorem accAfter_decode_eq_self {w : CmdWord} (hinit : decode w ≠ .ckInit) (hadd : w &&& 0xF00#12 ≠ 0x200#12)
    (a : Byte) : accAfter (decode w) a = a := by
  cases hdecode : decode w with
  | ckInit => exact absurd hdecode hinit
  | ckAdd d => exact absurd (and_opMask_of_decode_ckAdd hdecode) hadd
  | _ => rfl

/-- Without `CK_INIT`, the `CK_ADD` words alone leave the ACC of the whole stream. -/
theorem afterAll_filter_ckAdd_acc {ws : List CmdWord} (hinit : ∀ w ∈ ws, decode w ≠ .ckInit) (s : State) :
    (afterAll (ws.map decode) s).acc =
      (afterAll ((ws.filter fun w => w &&& 0xF00#12 == 0x200#12).map decode) s).acc := by
  rw [afterAll_acc, afterAll_acc, List.foldl_map, List.foldl_map, List.foldl_filter]
  refine List.foldl_ext _ _ _ fun a w hw => ?_
  by_cases hadd : w &&& 0xF00#12 = 0x200#12
  · simp [hadd]
  · simp [hadd, accAfter_decode_eq_self (hinit w hw) hadd]

/-- Settles O38: the split law is `cksum_append` as numbers, and `afterAll_filter_ckAdd_acc` is the rest. -/
theorem frameMayBeAbsorbedInParts : Obligations.FrameMayBeAbsorbedInParts := by
  refine ⟨fun xs ys => by rw [cksum_append, BitVec.toNat_add], fun s ws hreset hinit => ?_⟩
  exact ⟨_, _, runWords_eq ws s hreset, runWords_eq _ s hreset, afterAll_filter_ckAdd_acc hinit s⟩

end Sys2Proof.Machine
end

section
/-! Unit BCD command by command (41_bcd.md R63 to R65): the words of each command by their masked op, and what the command
makes of the whole state, with one lemma for each way that a byte can fare. -/

namespace Sys2Proof.Machine

/-! ## Words by their masked op (R42) -/

/-- The words of a row whose command takes the data as its operand. -/
theorem decode_of_and_opMask {op : Nibble} {mk : Byte → Instr} (hrow : ∀ d, decode (packWord op d) = mk d) {w : CmdWord}
    (h : w &&& 0xF00#12 = packWord op 0x00#8) : decode w = mk (w.setWidth 8) := by
  have hop : opField w = op := (and_opMask_eq_iff w op).mp h
  rw [← dataField_eq_setWidth, ← hrow, ← hop, packWord_fields]

theorem and_opMask_of_decode_bcdByte {w : CmdWord} {d : Byte} (h : decode w = .bcdByte d) :
    w &&& 0xF00#12 = 0x500#12 :=
  (and_opMask_eq_iff w 0x5#4).mpr (by rw [← opcodeOf_decode, h]; rfl)

/-! ## `BCD_INIT` (R63) -/

theorem after_bcdInit (s : State) :
    after .bcdInit s = { s with term := false, responses := s.responses ++ [defaultResp] } := rfl

/-- No command but `BCD_INIT` clears TERM. -/
theorem termAfter_true {i : Instr} (h : i ≠ .bcdInit) : termAfter i true = true := by
  cases i with
  | bcdInit => exact absurd rfl h
  | _ => rfl

/-- Settles O5: every word of the row is `BCD_INIT`, `after_bcdInit` is its effect, and `termAfter_true` is the rest. -/
theorem bcdInitClearsTerm : Obligations.BcdInitClearsTerm := by
  refine ⟨decode_eq_iff_and_opMask decode_bcdInit, rfl, fun s => ?_, fun i s hinit hterm => ?_⟩
  · rw [exec_eq_after, after_bcdInit]
    rfl
  · exact ⟨after i s, exec_eq_after i s, by rw [after_term, hterm, termAfter_true hinit]⟩

/-! ## `BCD_BYTE` (R64, R66, R67) -/

/-- The response to one emitted digit. -/
theorem setDigitStatus_one_digit (n : Nibble) : setDigitStatus (emitDigit n defaultResp) =
    ⟨if 9 < n.toNat then .badNibble else .ok, false, 0x00#8, false, 1, n, 0x0#4⟩ := by
  simp [setDigitStatus, setStatus, aboveNine, emitDigit, defaultResp, respDigits]

/-- The response to two emitted digits. -/
theorem setDigitStatus_two_digits (n m : Nibble) : setDigitStatus (emitDigit m (emitDigit n defaultResp)) =
    ⟨if 9 < n.toNat ∨ 9 < m.toNat then .badNibble else .ok, false, 0x00#8, false, 2, n, m⟩ := by
  simp [setDigitStatus, setStatus, aboveNine, emitDigit, defaultResp, respDigits]

section
variable {d : Byte} {s : State}

/-- While TERM = 1 a byte is not consumed (R67). -/
theorem exec_bcdByte_of_term (hterm : s.term = true) : exec (.bcdByte d) s =
    .next { s with responses := s.responses ++ [⟨.discarded, false, 0x00#8, false, 0, 0x0#4, 0x0#4⟩] } := by
  rw [exec_eq_after]
  exact congrArg _ (state_ext rfl (by simp [termAfter, hterm]) rfl rfl (by simp [respTo, hterm]; rfl))

/-- With TERM = 0 a byte is split, and TERM is what the split makes of it. -/
theorem exec_bcdByte_of_not_term (hterm : s.term = false) : exec (.bcdByte d) s =
    .next { s with term := (splitByte d).2, responses := s.responses ++ [setDigitStatus (splitByte d).1] } := by
  rw [exec_eq_after]
  exact congrArg _ (state_ext rfl (by simp [termAfter, hterm]) rfl rfl (by simp [respTo, hterm]))

/-- A terminator in the high nibble: no digit, and the low nibble is not examined (R66). -/
theorem exec_bcdByte_of_hi (hterm : s.term = false) (hhi : hiNibble d = termNib) : exec (.bcdByte d) s =
    .next { s with term := true, responses := s.responses ++ [⟨.ok, false, 0x00#8, false, 0, 0x0#4, 0x0#4⟩] } := by
  have hsplit : splitByte d = (defaultResp, true) := by simp [splitByte, isTerminator, hhi]
  rw [exec_bcdByte_of_not_term hterm, hsplit]
  rfl

/-- A terminator in the low nibble only: one digit. -/
theorem exec_bcdByte_of_lo (hterm : s.term = false) (hhi : hiNibble d ≠ termNib) (hlo : loNibble d = termNib) :
    exec (.bcdByte d) s = .next { s with
      term := true
      responses := s.responses ++
        [⟨if 9 < (hiNibble d).toNat then .badNibble else .ok, false, 0x00#8, false, 1, hiNibble d, 0x0#4⟩] } := by
  have hsplit : splitByte d = (emitDigit (hiNibble d) defaultResp, true) := by simp [splitByte, isTerminator, hhi, hlo]
  rw [exec_bcdByte_of_not_term hterm, hsplit, setDigitStatus_one_digit]

/-- No terminator: two digits, and TERM stays 0. -/
theorem exec_bcdByte_of_digits (hterm : s.term = false) (hhi : hiNibble d ≠ termNib) (hlo : loNibble d ≠ termNib) :
    exec (.bcdByte d) s = .next { s with
      responses := s.responses ++
        [⟨if 9 < (hiNibble d).toNat ∨ 9 < (loNibble d).toNat then .badNibble else .ok, false, 0x00#8, false, 2,
          hiNibble d, loNibble d⟩] } := by
  have hsplit : splitByte d = (emitDigit (loNibble d) (emitDigit (hiNibble d) defaultResp), false) := by
    simp [splitByte, isTerminator, hhi, hlo]
  rw [exec_bcdByte_of_not_term hterm, hsplit, setDigitStatus_two_digits, ← hterm]

end

/-- Settles O6: each branch of the pseudocode is its lemma above. -/
theorem bcdByteDecodesNibbles : Obligations.BcdByteDecodesNibbles := by
  refine ⟨fun w h => decode_of_and_opMask decode_bcdByte h, fun w d h => and_opMask_of_decode_bcdByte h,
    encode_bcdByte, fun d s => ?_⟩
  rw [← hiNibble_eq_shift, ← loNibble_eq_setWidth]
  cases hterm : s.term with
  | true => exact exec_bcdByte_of_term hterm
  | false =>
    by_cases hhi : hiNibble d = termNib
    · exact (exec_bcdByte_of_hi hterm hhi).trans (if_pos hhi).symm
    · by_cases hlo : loNibble d = termNib
      · exact (exec_bcdByte_of_lo hterm hhi hlo).trans ((if_neg hhi).trans (if_pos hlo)).symm
      · exact (exec_bcdByte_of_digits hterm hhi hlo).trans ((if_neg hhi).trans (if_neg hlo)).symm

/-! ## The outcome table (R65) -/

@[simp] theorem hiNibble_append (hi lo : Nibble) : hiNibble (hi ++ lo) = hi := by
  have hlo := lo.isLt
  apply BitVec.eq_of_toNat_eq
  rw [hiNibble_toNat, BitVec.toNat_append, ← Nat.shiftLeft_add_eq_or_of_lt hlo, Nat.shiftLeft_eq]
  omega

@[simp] theorem loNibble_append (hi lo : Nibble) : loNibble (hi ++ lo) = lo := by
  have hlo := lo.isLt
  apply BitVec.eq_of_toNat_eq
  rw [loNibble_toNat, BitVec.toNat_append, ← Nat.shiftLeft_add_eq_or_of_lt hlo, Nat.shiftLeft_eq]
  omega

/-- The nibbles of the classes D and X are no terminator. -/
theorem ne_termNib_of_le {n : Nibble} (h : n.toNat ≤ 14) : n ≠ termNib := by
  rw [Ne, eq_termNib_iff]
  omega

section
variable {hi lo : Nibble} {s : State}

/-- The rows with a digit and a terminator, by the status of the digit. -/
theorem exec_bcdByte_append_termNib (hterm : s.term = false) (hhi : hi.toNat ≤ 14) (hlo : lo = 0xF) :
    exec (.bcdByte (hi ++ lo)) s = .next { s with
      term := true
      responses := s.responses ++
        [⟨if 9 < hi.toNat then .badNibble else .ok, false, 0x00#8, false, 1, hi, 0x0#4⟩] } := by
  simpa using exec_bcdByte_of_lo (d := hi ++ lo) hterm (by simpa using ne_termNib_of_le hhi)
    (by rw [loNibble_append, hlo]; rfl)

/-- The rows with two digits, by the status of the two. -/
theorem exec_bcdByte_append_digits (hterm : s.term = false) (hhi : hi.toNat ≤ 14) (hlo : lo.toNat ≤ 14) :
    exec (.bcdByte (hi ++ lo)) s = .next { s with
      responses := s.responses ++
        [⟨if 9 < hi.toNat ∨ 9 < lo.toNat then .badNibble else .ok, false, 0x00#8, false, 2, hi, lo⟩] } := by
  simpa using exec_bcdByte_of_digits (d := hi ++ lo) hterm (by simpa using ne_termNib_of_le hhi)
    (by simpa using ne_termNib_of_le hlo)

end

/-- Settles O7: each row is one of the lemmas above with its status decided by the row's classes. -/
theorem bcdByteOutcomeTable : Obligations.BcdByteOutcomeTable := by
  refine ⟨fun s hi lo hterm => ⟨fun hhi => ?_, fun hhi hlo => ?_, fun hhi hlo hlo' => ?_, fun hhi hlo => ?_,
    fun hhi hhi' hlo => ?_, fun hhi hhi' hlo => ?_⟩, fun s d hterm => exec_bcdByte_of_term hterm⟩
  · exact exec_bcdByte_of_hi hterm (by rw [hiNibble_append, hhi]; rfl)
  · rw [exec_bcdByte_append_digits hterm (by omega) (by omega), if_neg (by omega)]
  · rw [exec_bcdByte_append_digits hterm (by omega) hlo', if_pos (by omega)]
  · rw [exec_bcdByte_append_termNib hterm (by omega) hlo, if_neg (by omega)]
  · rw [exec_bcdByte_append_digits hterm hhi' hlo, if_pos (by omega)]
  · rw [exec_bcdByte_append_termNib hterm hhi' hlo, if_pos (by omega)]

end Sys2Proof.Machine
end

section
/-! The laws of BCD (41_bcd.md R69 to R73). The responses to a field do not depend on the state it is decoded in; its digits
and its final TERM are those of the stream laws for a stream of one field, and its digits are the nibbles before the first
terminator. -/

namespace Sys2Proof.Machine

/-! ## Streams without CKG commands -/

/-- Without CKG commands ACC stays. -/
theorem afterAll_acc_of_no_ckg {is : List Instr} (h : ∀ i ∈ is, isCkg i = false) (s : State) :
    (afterAll is s).acc = s.acc := by
  rw [(afterAll_filter_isCkg is s).1, List.filter_eq_nil_iff.mpr (by simpa using h), afterAll_nil]

/-- Without CKG commands no response depends on ACC. -/
theorem respsTo_of_no_ckg {is : List Instr} (h : ∀ i ∈ is, isCkg i = false) (a a' : Byte) (b : Bool) :
    respsTo is a b = respsTo is a' b := by
  induction is generalizing a a' b with
  | nil => rfl
  | cons i is ih =>
    rw [respsTo_cons, respsTo_cons, respTo_of_not_ckg (h i (by simp)) a a' b,
      ih (fun j hj => h j (by simp [hj])) _ (accAfter i a')]

theorem isCkg_eq_false_of_mem_bcdDecode {bs : List Byte} {i : Instr} (h : i ∈ bcdDecode bs) : isCkg i = false := by
  obtain rfl | ⟨d, -, rfl⟩ : i = .bcdInit ∨ ∃ d, d ∈ bs ∧ Instr.bcdByte d = i := by simpa [bcdDecode] using h
  · rfl
  · rfl

/-! ## The run of `BCD_DECODE` (R69, R70) -/

/-- The responses to `BCD_DECODE`, from any state by `respsTo_bcdDecode`. -/
def fieldResps (bs : List Byte) : List Resp := respsTo (bcdDecode bs) 0x00#8 false

/-- `BCD_INIT` forgets TERM, and ACC is not read (R70). -/
theorem respsTo_bcdDecode (bs : List Byte) (a : Byte) (b : Bool) : respsTo (bcdDecode bs) a b = fieldResps bs :=
  respsTo_of_no_ckg (fun _ => isCkg_eq_false_of_mem_bcdDecode) a 0x00#8 b

/-- The bytes of a field are one field of a stream. -/
theorem bcdFields_map_bcdByte (bs sofar : List Byte) : bcdFields sofar (bs.map .bcdByte) = [sofar ++ bs] := by
  induction bs generalizing sofar with
  | nil => simp [bcdFields]
  | cons b bs ih => simp [bcdFields, ih]

/-- After `BCD_INIT` TERM ends as what the field makes of it. -/
theorem afterAll_bcdDecode_term (bs : List Byte) (s : State) : (afterAll (bcdDecode bs) s).term = fieldEnded bs := by
  obtain ⟨f, hlast, hended⟩ := termAfter_fold_fieldEnded (bs.map .bcdByte) []
  obtain rfl : bs = f := by simpa [bcdFields_map_bcdByte] using hlast
  rw [afterAll_term]
  exact hended

theorem afterAll_bcdDecode (bs : List Byte) (s : State) : afterAll (bcdDecode bs) s =
    { s with term := fieldEnded bs, responses := s.responses ++ fieldResps bs } :=
  state_ext (afterAll_acc_of_no_ckg (fun _ => isCkg_eq_false_of_mem_bcdDecode) s) (afterAll_bcdDecode_term bs s)
    (afterAll_resetIn _ s) (afterAll_port _ s) (by rw [afterAll_responses, respsTo_bcdDecode])

theorem runCommands_bcdDecode (bs : List Byte) {s : State} (hreset : s.resetIn = false) : runCommands (bcdDecode bs) s =
    .next { s with term := fieldEnded bs, responses := s.responses ++ fieldResps bs } := by
  rw [runCommands_eq (by simp [bcdDecode, Instr.wellFormed]) hreset, afterAll_bcdDecode]

/-- Settles O44: both runs append `fieldResps`. -/
theorem bcdDecodeIsRestartable : Obligations.BcdDecodeIsRestartable := by
  intro s s' bs hreset hreset'
  exact ⟨_, _, fieldResps bs, runCommands_bcdDecode bs hreset, runCommands_bcdDecode bs hreset', rfl, rfl⟩

/-! ## The digits of a field (R69) -/

/-- The digits of a field are those of the reference decoder. -/
theorem digitOutput_fieldResps (bs : List Byte) : digitOutput (fieldResps bs) = decodeBCD bs := by
  have h := digitOutput_respsTo (bs.map .bcdByte) [] 0x00#8
  rw [bcdFields_map_bcdByte] at h
  exact h.trans (List.flatMap_singleton _ _)

/-- A sound response without BAD_NIBBLE emits decimal digits only (R68). -/
theorem toNat_le_nine_of_soundResp {r : Resp} (hsound : soundResp r = true) (hstatus : r.status ≠ .badNibble) :
    ∀ n ∈ respDigits r, n.toNat ≤ 9 := by
  simp only [soundResp, Bool.and_eq_true, beq_iff_eq] at hsound
  obtain ⟨⟨⟨-, hbad⟩, -⟩, -⟩ := hsound
  have hnone : (respDigits r).any aboveNine = false := by rw [← hbad, beq_eq_false_iff_ne]; exact hstatus
  simpa [aboveNine] using hnone

/-- Without a BAD_NIBBLE response every digit of a field is decimal. -/
theorem toNat_le_nine_of_mem_fieldResps {bs : List Byte} (hbad : badNibbleSeen (fieldResps bs) = false) :
    ∀ n ∈ digitOutput (fieldResps bs), n.toNat ≤ 9 := by
  intro n hn
  obtain ⟨r, hr, hn⟩ := List.mem_flatMap.mp hn
  have hsound : soundResp r = true := List.all_eq_true.mp (all_soundResp_respsTo _ _ _) r hr
  have hstatus : r.status ≠ .badNibble := by simpa using List.any_eq_false.mp hbad r hr
  exact toNat_le_nine_of_soundResp hsound hstatus n hn

/-- Settles O43: the run of the field, its digits by the stream law, and its responses by their soundness. -/
theorem bcdDecodeEqualsReference : Obligations.BcdDecodeEqualsReference := by
  intro s bs hreset
  exact ⟨fieldResps bs, runCommands_bcdDecode bs hreset, digitOutput_fieldResps bs,
    fun hbad n hn => ⟨toNat_le_nine_of_mem_fieldResps hbad n hn, digitChar_toNat n⟩⟩

/-! ## The nibbles before the terminator (R27, R72) -/

theorem length_nibblesOf (bs : List Byte) : (nibblesOf bs).length = 2 * bs.length := by
  simp [nibblesOf, List.length_flatMap, Nat.mul_comm]

/-- The reference decoder stops at the first terminator. -/
theorem decodeBCD_eq_takeWhile (bs : List Byte) :
    decodeBCD bs = (nibblesOf bs).takeWhile (fun n => n != 0xF#4) := by
  induction bs with
  | nil => rfl
  | cons b bs ih =>
    have hcons : nibblesOf (b :: bs) = hiNibble b :: loNibble b :: nibblesOf bs := rfl
    by_cases hhi : hiNibble b = 0xF#4
    · simp [decodeBCD, hcons, hhi]
    · by_cases hlo : loNibble b = 0xF#4 <;> simp [decodeBCD, hcons, hhi, hlo, ih]

theorem length_decodeBCD_le (bs : List Byte) : (decodeBCD bs).length ≤ 2 * bs.length := by
  rw [decodeBCD_eq_takeWhile, ← length_nibblesOf]
  exact (List.takeWhile_prefix _).length_le

/-- The digits are all the nibbles exactly when none of them is a terminator. -/
theorem length_decodeBCD_eq_iff (bs : List Byte) :
    (decodeBCD bs).length = 2 * bs.length ↔ 0xF#4 ∉ nibblesOf bs := by
  have hall : (decodeBCD bs).length = (nibblesOf bs).length ↔ decodeBCD bs = nibblesOf bs := by
    rw [decodeBCD_eq_takeWhile]
    exact ⟨(List.takeWhile_prefix _).eq_of_length, congrArg _⟩
  rw [← length_nibblesOf, hall, decodeBCD_eq_takeWhile, List.takeWhile_eq_self_iff]
  exact ⟨fun h hmem => by simpa using h _ hmem, fun h n hn => by simpa using ne_of_mem_of_not_mem hn h⟩

/-- With the first terminator at index `k` there are `k` digits. -/
theorem length_decodeBCD_of_first_terminator {bs : List Byte} {k : Nat} (hk : (nibblesOf bs)[k]? = some 0xF#4)
    (hfirst : ∀ j < k, (nibblesOf bs)[j]? ≠ some 0xF#4) : (decodeBCD bs).length = k := by
  obtain ⟨hlt, hget⟩ := List.getElem?_eq_some_iff.mp hk
  have hindex : (nibblesOf bs).findIdx (fun n => !(n != 0xF#4)) = k := by
    rw [List.findIdx_eq hlt]
    refine ⟨by simpa using hget, fun j hj => ?_⟩
    simpa [List.getElem?_eq_getElem (hj.trans hlt)] using hfirst j hj
  rw [decodeBCD_eq_takeWhile, List.takeWhile_eq_take_findIdx_not, hindex, List.length_take, Nat.min_eq_left hlt.le]

/-- Settles O46: the digits are the nibbles up to the terminator, and the lengths above count them. -/
theorem digitsAreNibblesBeforeTerminator : Obligations.DigitsAreNibblesBeforeTerminator := by
  intro s bs hreset
  refine ⟨_, fieldResps bs, runCommands_bcdDecode bs hreset, rfl, ?_⟩
  rw [digitOutput_fieldResps]
  exact ⟨decodeBCD_eq_takeWhile bs, length_decodeBCD_le bs, length_decodeBCD_eq_iff bs, decide_eq_false_iff_not,
    fun k hk hfirst => length_decodeBCD_of_first_terminator hk hfirst⟩

/-! ## After the terminator (R67, R71, R73) -/

/-- While TERM = 1 every byte is answered DISCARDED (R67). -/
theorem respsTo_map_bcdByte_of_term (bs : List Byte) (a : Byte) : respsTo (bs.map .bcdByte) a true =
    List.replicate bs.length (setStatus .discarded defaultResp) := by
  induction bs with
  | nil => rfl
  | cons b bs ih => exact congrArg (_ :: ·) ih

/-- The responses to a field that begins with a byte 0xFF. -/
theorem fieldResps_cons_0xFF (bs : List Byte) : fieldResps (0xFF :: bs) =
    [defaultResp, defaultResp] ++ List.replicate bs.length (setStatus .discarded defaultResp) := by
  rw [← respsTo_map_bcdByte_of_term bs 0x00#8]
  rfl

/-- Settles O45: the first byte 0xFF ends the field, and the others are discarded. -/
theorem emptyAndAllTerminatorFields : Obligations.EmptyAndAllTerminatorFields := by
  intro s hreset
  refine ⟨runCommands_bcdDecode [] hreset, fun n => ?_⟩
  have hended : fieldEnded (List.replicate (n + 1) 0xFF) = true := by
    rw [List.replicate_succ, fieldEnded_cons]
    rfl
  rw [runCommands_bcdDecode _ hreset, hended, List.replicate_succ, fieldResps_cons_0xFF, List.length_replicate]
  rfl

/-- With TERM = 1 no command emits a digit. -/
theorem respDigits_respTo_of_term (i : Instr) (a : Byte) : respDigits (respTo i a true) = [] := by
  cases i <;> rfl

/-- Without `BCD_INIT` TERM stays 1. -/
theorem termAfter_fold_true {is : List Instr} (hinit : ∀ i ∈ is, i ≠ .bcdInit) :
    is.foldl (fun b i => termAfter i b) true = true := by
  induction is with
  | nil => rfl
  | cons i is ih =>
    rw [List.foldl_cons, termAfter_true (hinit i (by simp))]
    exact ih fun j hj => hinit j (by simp [hj])

/-- Without `BCD_INIT` each response of a stream from TERM = 1 is its command's response to TERM = 1. -/
theorem respTo_of_mem_zip_respsTo {is : List Instr} (hinit : ∀ i ∈ is, i ≠ .bcdInit) (a : Byte) :
    ∀ p ∈ is.zip (respsTo is a true), ∃ a', p.2 = respTo p.1 a' true := by
  induction is generalizing a with
  | nil => simp
  | cons i is ih =>
    intro p hp
    rw [respsTo_cons, termAfter_true (hinit i (by simp)), List.zip_cons_cons] at hp
    rcases List.mem_cons.mp hp with rfl | hp
    · exact ⟨a, rfl⟩
    · exact ih (fun j hj => hinit j (by simp [hj])) _ p hp

/-- Without `BCD_INIT` a stream from TERM = 1 emits no digit. -/
theorem digitOutput_respsTo_of_term {is : List Instr} (hinit : ∀ i ∈ is, i ≠ .bcdInit) (a : Byte) :
    digitOutput (respsTo is a true) = [] := by
  refine List.flatMap_eq_nil_iff.mpr fun r hr => ?_
  rw [← List.map_snd_zip (l₁ := is) (l₂ := respsTo is a true) (by simp)] at hr
  obtain ⟨p, hp, rfl⟩ := List.mem_map.mp hr
  obtain ⟨a', hresp⟩ := respTo_of_mem_zip_respsTo hinit a p hp
  rw [hresp, respDigits_respTo_of_term]

/-- Settles O47: TERM stays 1, so every response is the command's response to TERM = 1. -/
theorem terminationIsPermanent : Obligations.TerminationIsPermanent := by
  intro s ws hreset hterm hwords
  have hinit : ∀ i ∈ ws.map decode, i ≠ .bcdInit := by simpa using hwords
  refine ⟨_, respsTo (ws.map decode) s.acc true, runWords_eq ws s hreset, by rw [afterAll_responses, hterm], by simp,
    by rw [afterAll_term, hterm, termAfter_fold_true hinit], digitOutput_respsTo_of_term hinit s.acc, ?_⟩
  rintro ⟨i, r⟩ hp ⟨d, rfl⟩
  obtain ⟨a, hresp⟩ := respTo_of_mem_zip_respsTo hinit s.acc _ hp
  exact hresp

end Sys2Proof.Machine
end

section
/-! The commands of neither unit (42_control.md R74, R75): `NOP`, and the reserved words by the masks of their two rows.
A reserved command only appends ILLEGAL, so `afterAll_filter` with ACC and TERM as what the two runs share drops the
reserved words from a stream. -/

namespace Sys2Proof.Machine

/-! ## `NOP` (R74) -/

theorem after_nop (s : State) : after .nop s = { s with responses := s.responses ++ [defaultResp] } := rfl

/-- Settles O1: every word of the row is `NOP`, and `after_nop` is its effect. -/
theorem nopPerformsNothing : Obligations.NopPerformsNothing :=
  ⟨decode_eq_iff_and_opMask decode_nop, rfl, fun s => by rw [exec_eq_after, after_nop]; rfl⟩

/-! ## The words of the two reserved rows (R43, R75) -/

/-- A mask that ignores the data compares the masked op alone. -/
theorem and_eq_packWord_iff {mask : CmdWord} (hmask : dataField mask = 0x00#8) (w : CmdWord) (op : Nibble) :
    w &&& mask = packWord op 0x00#8 ↔ opField w &&& opField mask = op := by
  have hand : w &&& mask = packWord (opField w &&& opField mask) 0x00#8 := by
    rw [← packWord_and_of_dataField_eq_zero (opField w) (dataField w) hmask, packWord_fields]
  rw [hand]
  exact ⟨fun h => by simpa using congrArg opField h, fun h => by rw [h]⟩

theorem decode_eq_reservedLow_iff (w : CmdWord) :
    (∃ op, decode w = .reservedLow op) ↔ opField w = 0x6#4 ∨ opField w = 0x7#4 := by
  constructor
  · rintro ⟨op, h⟩
    rw [← opcodeOf_decode, h]
    exact (wellFormed_reservedLow_iff op).mp (h ▸ wellFormed_decode w)
  · intro hop
    exact ⟨opField w, by rw [← decode_reservedLow hop (dataField w), packWord_fields]⟩

theorem decode_eq_reservedHigh_iff (w : CmdWord) :
    (∃ op, decode w = .reservedHigh op) ↔ 8 ≤ (opField w).toNat := by
  constructor
  · rintro ⟨op, h⟩
    rw [← opcodeOf_decode, h]
    exact (wellFormed_reservedHigh_iff op).mp (h ▸ wellFormed_decode w)
  · intro hop
    exact ⟨opField w, by rw [← decode_reservedHigh hop (dataField w), packWord_fields]⟩

/-- The op range of the first reserved row as a masked op. -/
theorem and_0xE_eq_iff (op : Nibble) : op &&& 0xE#4 = 0x6#4 ↔ op = 0x6#4 ∨ op = 0x7#4 := by
  revert op
  decide

/-- The op range of the second reserved row as a masked op. -/
theorem and_0x8_eq_iff (op : Nibble) : op &&& 0x8#4 = 0x8#4 ↔ 8 ≤ op.toNat := by
  revert op
  decide

/-! ## The effect of a reserved command (R75) -/

/-- A command of one of the two reserved rows. -/
def isReserved : Instr → Bool
  | .reservedLow _ => true
  | .reservedHigh _ => true
  | _ => false

/-- The reserved words are those of the reserved commands. -/
theorem isReservedWord_eq (w : CmdWord) : isReservedWord w = isReserved (decode w) := by
  cases w using packWord_cases with
  | reservedLow op d hop =>
    rw [decode_reservedLow hop, isReservedWord, opField_packWord]
    rcases hop with rfl | rfl <;> rfl
  | reservedHigh op d hop =>
    rw [decode_reservedHigh hop, isReservedWord, opField_packWord]
    exact decide_eq_true (by omega)
  | _ => simp [isReservedWord, isReserved]

theorem after_of_isReserved {i : Instr} (h : isReserved i = true) (s : State) :
    after i s = { s with responses := s.responses ++ [setStatus .illegal defaultResp] } := by
  cases i with
  | reservedLow op => rfl
  | reservedHigh op => rfl
  | _ => exact absurd h Bool.false_ne_true

/-- Settles O8: each row's mask picks the row's ops, and `after_of_isReserved` is the effect. -/
theorem reservedWordsReturnIllegal : Obligations.ReservedWordsReturnIllegal := by
  refine ⟨fun w => ?_, fun w => ?_, fun op s => ?_, fun op s => ?_⟩
  · rw [decode_eq_reservedLow_iff, ← and_0xE_eq_iff]
    exact (and_eq_packWord_iff (mask := 0xE00#12) rfl w 0x6#4).symm
  · rw [decode_eq_reservedHigh_iff, ← and_0x8_eq_iff]
    exact (and_eq_packWord_iff (mask := 0x800#12) rfl w 0x8#4).symm
  · rw [exec_eq_after, after_of_isReserved rfl]
    rfl
  · rw [exec_eq_after, after_of_isReserved rfl]
    rfl

/-! ## Reserved words in a stream (R75, R82) -/

/-- The other commands of a stream leave the same ACC and TERM and answer alike without the reserved ones. -/
theorem afterAll_filter_not_isReserved (is : List Instr) (s : State) :
    (afterAll is s).toBlock = (afterAll (is.filter fun i => !isReserved i) s).toBlock ∧
      respsTo (is.filter fun i => !isReserved i) s.acc s.term =
        ((is.zip (respsTo is s.acc s.term)).filter fun q => !isReserved q.1).map Prod.snd := by
  refine afterAll_filter (R := fun s u => s.toBlock = u.toBlock) (fun i s u hp h => ?_) (fun i s u _ h => ?_) is s s rfl
  · rw [after_of_isReserved (by simpa using hp)]
    exact h
  · rw [after_eq_commit_blockStep, after_eq_commit_blockStep, commit_toBlock, commit_toBlock, h]
    exact ⟨rfl, rfl⟩

/-- Settles O28: the run without the reserved words is one pass over the other commands. -/
theorem reservedWordsLeaveNoTrace : Obligations.ReservedWordsLeaveNoTrace := by
  intro s ws hreset
  obtain ⟨hblock, hresps⟩ := afterAll_filter_not_isReserved (ws.map decode) s
  simp only [isReservedWord_eq]
  refine ⟨_, _, respsTo (ws.map decode) s.acc s.term, runWords_eq ws s hreset,
    runWords_filter_decode (fun i => !isReserved i) ws s hreset, congrArg Block.acc hblock.symm,
    congrArg Block.term hblock.symm, afterAll_responses _ s, ?_⟩
  rw [afterAll_responses, hresps, List.zip_map_left, List.filter_map, List.map_map]
  rfl

end Sys2Proof.Machine
end

section
/-! The statuses of 60_exceptions.md. `status_respTo_bcdByte` gives the one status that is decided by more than the command's
row; the causes of each status (R78, R79) and the priority among them (R80) are read off from it. No status stops the
machine (R81). -/

namespace Sys2Proof.Machine

/-! ## The causes of each status (R78, R79) -/

/-- Does the byte, when it is consumed, emit a digit above 9? -/
def emitsBadNibble (d : Byte) : Bool := (respDigits (splitByte d).1).any aboveNine

/-- The high nibble is emitted unless it is the terminator, and the low nibble only if neither is (41_bcd.md R66, R68). -/
theorem emitsBadNibble_iff (d : Byte) : emitsBadNibble d = true ↔
    d.toNat / 16 ≠ 15 ∧ (10 ≤ d.toNat / 16 ∨ (10 ≤ d.toNat % 16 ∧ d.toNat % 16 ≠ 15)) := by
  rw [← hiNibble_toNat, ← loNibble_toNat, emitsBadNibble]
  rcases splitByte_cases d with ⟨hhi, e⟩ | ⟨hhi, hlo, e⟩ | ⟨hhi, hlo, e⟩
  · rw [eq_termNib_iff] at hhi
    simp [e, hhi]
  · rw [Ne, eq_termNib_iff] at hhi
    rw [eq_termNib_iff] at hlo
    simp [e, aboveNine, hhi, hlo, Nat.succ_le_iff]
  · rw [Ne, eq_termNib_iff] at hhi hlo
    simp [e, aboveNine, hhi, hlo, Nat.succ_le_iff]

/-- The same by the range 0xA..0xE of each emitted nibble. -/
theorem emitsBadNibble_iff_ranges (d : Byte) : emitsBadNibble d = true ↔
    (10 ≤ d.toNat / 16 ∧ d.toNat / 16 ≤ 14) ∨
      (d.toNat / 16 ≤ 14 ∧ 10 ≤ d.toNat % 16 ∧ d.toNat % 16 ≤ 14) := by
  have hd := d.isLt
  rw [emitsBadNibble_iff]
  omega

/-- TERM decides first, so a discarded byte is not checked for bad nibbles. -/
theorem status_respTo_bcdByte (d a : Byte) (b : Bool) : (respTo (.bcdByte d) a b).status =
    if b then .discarded else if emitsBadNibble d then .badNibble else .ok := by
  cases b <;> rfl

theorem isReserved_iff (i : Instr) : isReserved i = true ↔ ∃ op, i = .reservedLow op ∨ i = .reservedHigh op := by
  cases i <;> simp [isReserved]

theorem status_respTo_eq_illegal_iff (i : Instr) (a : Byte) (b : Bool) :
    (respTo i a b).status = .illegal ↔ isReserved i = true := by
  cases i with
  | bcdByte d =>
    rw [status_respTo_bcdByte]
    split_ifs <;> simp [isReserved]
  | _ => simp [respTo, isReserved]

theorem status_respTo_eq_discarded_iff (i : Instr) (a : Byte) (b : Bool) :
    (respTo i a b).status = .discarded ↔ b = true ∧ ∃ d, i = .bcdByte d := by
  cases i with
  | bcdByte d =>
    rw [status_respTo_bcdByte]
    cases b with
    | true => simp
    | false => cases hbad : emitsBadNibble d <;> simp
  | _ => simp [respTo]

theorem status_respTo_eq_badNibble_iff (i : Instr) (a : Byte) (b : Bool) :
    (respTo i a b).status = .badNibble ↔ b = false ∧ ∃ d, i = .bcdByte d ∧ emitsBadNibble d = true := by
  cases i with
  | bcdByte d =>
    rw [status_respTo_bcdByte]
    cases b with
    | true => simp
    | false => cases hbad : emitsBadNibble d <;> simp [hbad]
  | _ => simp [respTo]

/-- Settles O9: the codes are the table of `statusCode`, and each cause is its lemma above. -/
theorem statusCodesAndTheirCauses : Obligations.StatusCodesAndTheirCauses := by
  refine ⟨⟨rfl, rfl, rfl, rfl⟩, fun i s => ⟨after i s, respTo i s.acc s.term, exec_eq_after i s, after_responses i s,
    ?_, status_respTo_eq_discarded_iff i s.acc s.term, ?_⟩⟩
  · rw [status_respTo_eq_illegal_iff, isReserved_iff]
  · simp only [status_respTo_eq_badNibble_iff, emitsBadNibble_iff_ranges]

/-! ## The priority among them (R80) -/

/-- The nibbles of a word's data, as numbers. -/
theorem packWord_toNat_nibbles (op : Nibble) (d : Byte) :
    (packWord op d).toNat / 16 % 16 = d.toNat / 16 ∧ (packWord op d).toNat % 16 = d.toNat % 16 := by
  have hd := d.isLt
  rw [packWord_toNat]
  omega

/-- Settles O10: row by row of the opcode table; the op alone decides except in the row of `BCD_BYTE`. -/
theorem statusPriority : Obligations.StatusPriority := by
  intro w s
  refine ⟨after (decode w) s, respTo (decode w) s.acc s.term, exec_eq_after _ s, after_responses _ s, ?_⟩
  cases w using packWord_cases with
  | bcdByte d =>
    obtain ⟨hhi, hlo⟩ := packWord_toNat_nibbles 0x5#4 d
    rw [decode_bcdByte, status_respTo_bcdByte, packWord_toNat_div, hhi, hlo]
    simp [emitsBadNibble_iff]
  | reservedLow op d hop =>
    rw [decode_reservedLow hop, packWord_toNat_div, if_pos (by rcases hop with rfl | rfl <;> decide)]
    exact (status_respTo_eq_illegal_iff (.reservedLow op) s.acc s.term).mpr rfl
  | reservedHigh op d hop =>
    rw [decode_reservedHigh hop, packWord_toNat_div, if_pos (by omega)]
    exact (status_respTo_eq_illegal_iff (.reservedHigh op) s.acc s.term).mpr rfl
  | _ => simp [respTo]

/-! ## Nothing stops the machine (R81) -/

/-- Every step answers a next state. -/
theorem exists_step_eq_next (s : State) : ∃ t, step s = .next t := by
  obtain ⟨t, is, hstep⟩ := step_withResponses s
  exact ⟨_, hstep s.responses⟩

/-- Settles O24: by induction on the number of steps, each of which answers a next state. -/
theorem noRunEverStops : Obligations.NoRunEverStops := by
  intro n
  induction n with
  | zero => exact fun s => ⟨s, rfl⟩
  | succ n ih =>
    intro s
    obtain ⟨t, hstep⟩ := exists_step_eq_next s
    rw [run_succ n hstep]
    exact ih t

end Sys2Proof.Machine
end

section
/-! Reset (70_reset_and_hazards.md R91 to R93): the reset input's rise, the words presented while it is up and its fall, each
as a rule about steps, and what a stream gives from the state that a reset leaves. -/

namespace Sys2Proof.Machine

/-! ## The reset values (R92) -/

/-- Settles O29: each output is read off from `State.reset`. -/
theorem resetValues : Obligations.ResetValues := ⟨rfl, rfl, rfl, rfl, rfl⟩

/-! ## A reset from assertion to release (R91) -/

/-- With reset released, a step at its assertion completes words in flight and raises the input. -/
theorem step_assertReset {s : State} {fl : List CmdWord} {rest : List HostAction} (hreset : s.resetIn = false)
    (hport : s.port = .assertReset fl :: rest) : step s = .next (raiseReset Config.resetClearsOnAssert
      (afterAll (completed Config.resetInflight fl) { s with port := rest })) := by
  rw [step_cons hport]
  exact assertReset_eq fl hreset

/-- While reset is asserted, a presented word only leaves the port (log 4). -/
theorem step_command_of_resetIn {s : State} {w : CmdWord} {rest : List HostAction} (hreset : s.resetIn = true)
    (hport : s.port = .command w :: rest) : step s = .next { s with port := rest } := by
  rw [step_cons hport]
  exact if_pos hreset

/-- Settles O31: the step is the release itself, and reset is asserted. -/
theorem releaseRestoresResetValues : Obligations.ReleaseRestoresResetValues := by
  intro s rest hreset hport
  rw [step_cons hport]
  exact congrArg Host.Outcome.next (if_pos hreset)

/-- While reset is asserted, a run passes over the presented words and ends with the release. -/
theorem run_until_release {s : State} {ws : List CmdWord} {rest : List HostAction} (hreset : s.resetIn = true)
    (hport : s.port = ws.map HostAction.command ++ .releaseReset :: rest) :
    Host.Core.run Sys2Proof.core (ws.length + 1) s =
      .next { s with acc := 0x00#8, term := false, resetIn := false, port := rest } := by
  induction ws generalizing s with
  | nil => exact run_succ 0 (releaseRestoresResetValues s rest hreset hport)
  | cons w ws ih => exact (run_succ _ (step_command_of_resetIn hreset hport)).trans (ih hreset rfl)

/-- A reset from assertion to release leaves the reset values, and the responses to the words in flight that completed. -/
theorem run_reset {s : State} {fl ws : List CmdWord} {rest : List HostAction} (hreset : s.resetIn = false)
    (hport : s.port = .assertReset fl :: (ws.map HostAction.command ++ .releaseReset :: rest)) :
    Host.Core.run Sys2Proof.core (ws.length + 2) s = .next ⟨Block.reset, false, rest,
      s.responses ++ respsTo (completed Config.resetInflight fl) s.acc s.term⟩ := by
  rw [run_succ _ (step_assertReset hreset hport), run_until_release (raiseReset_resetIn _ _)
    (by rw [raiseReset_port, afterAll_port]), raiseReset_responses, afterAll_responses]
  rfl

/-- The responses to the words in flight are all returned or none is (log 5, log 6). -/
theorem respsTo_completed (c : InflightChoice) (fl : List CmdWord) (a : Byte) (b : Bool) :
    respsTo (completed c fl) a b = [] ∨ respsTo (completed c fl) a b = respsTo (fl.map decode) a b := by
  cases c with
  | dropped => exact .inl rfl
  | performed => exact .inr rfl

/-- Settles O30: `run_reset`, with the responses to all words in flight or to none of them. -/
theorem resetEpisode : Obligations.ResetEpisode := by
  intro s fl ws rest hreset
  refine ⟨_, run_reset hreset rfl, rfl, rfl, rfl, rfl, ?_⟩
  rcases respsTo_completed Config.resetInflight fl s.acc s.term with hnone | hall
  · exact .inl (by simp [hnone])
  · exact .inr ⟨_, runWords_eq fl s hreset, by simp [hall, afterAll_responses]⟩

/-! ## Runs from the state that a reset leaves (R93, R100) -/

/-- The result of a stream is a function of the ACC and TERM it begins with. -/
theorem runResult_afterAll (is : List Instr) (s : State) : runResult s.responses.length (afterAll is s) =
    { responses := respsTo is s.acc s.term
      finalAcc := is.foldl (fun a i => accAfter i a) s.acc
      finalTerm := is.foldl (fun b i => termAfter i b) s.term
      frameBytes := frameOutput (respsTo is s.acc s.term)
      digits := digitOutput (respsTo is s.acc s.term) } := by
  simp [runResult, afterAll_responses, afterAll_acc, afterAll_term]

/-- Settles O32: both runs begin with the reset values of ACC and TERM. -/
theorem runAfterAnyResetMatchesRunFromReset : Obligations.RunAfterAnyResetMatchesRunFromReset := by
  intro s ws hreset hacc hterm
  have hresult : runResult 0 (afterAll (ws.map decode) State.reset) = _ := runResult_afterAll _ State.reset
  refine ⟨_, _, runWords_eq ws s hreset, runWords_eq ws State.reset rfl, ?_, ?_⟩
  · rw [runResult_afterAll, hacc, hterm, hresult]
    rfl
  · rw [hresult, respsTo_length, List.length_map]

/-- The responses to `CK_FRAME`, from any state. -/
theorem respsTo_ckFrame (bs : List Byte) (s : State) : respsTo (ckFrame bs) s.acc s.term = frameResps bs :=
  List.append_cancel_left
    ((afterAll_responses (ckFrame bs) s).symm.trans (congrArg State.responses (afterAll_ckFrame bs s)))

/-- Settles O33: an INIT command leaves `State.reset` as it is and its response carries nothing, so the outputs without it
are those of `CK_FRAME` and of `BCD_DECODE`. -/
theorem firstFrameAndFieldNeedNoInit : Obligations.FirstFrameAndFieldNeedNoInit := by
  intro bs
  refine ⟨⟨_, runCommands_eq (by simp [Instr.wellFormed]) rfl, ?_⟩,
    ⟨_, runCommands_eq (by simp [Instr.wellFormed]) rfl, ?_⟩⟩
  · calc frameOutput (afterAll (bs.map Instr.ckAdd ++ [.ckEnd]) State.reset).responses
        = frameOutput (respsTo (ckFrame bs) State.reset.acc State.reset.term) := by rw [afterAll_responses]; rfl
      _ = bs ++ [cksum bs] := by rw [respsTo_ckFrame, frameOutput_frameResps]
  · calc digitOutput (afterAll (bs.map Instr.bcdByte) State.reset).responses
        = digitOutput (fieldResps bs) := by rw [afterAll_responses]; rfl
      _ = decodeBCD bs := digitOutput_fieldResps bs

end Sys2Proof.Machine
end

section
/-! The frames that a host collects from a stream (70_reset_and_hazards.md R95, R96; log 20). While a frame is open ACC is the
checksum of what the host has of it, so the byte that `CK_END` emits completes a frame that checks. -/

namespace Sys2Proof.Machine

/-! ## The frames collected from a stream -/

/-- The frames collected from a stream that begins with the ACC `a` and the TERM `b`, when the host has the bytes `buf` of
the frame in progress. -/
def framesFrom (buf : List Byte) (is : List Instr) (a : Byte) (b : Bool) : List (List Byte) :=
  collectFrames buf (is.zip (respsTo is a b))

@[simp] theorem framesFrom_nil (buf : List Byte) (a : Byte) (b : Bool) : framesFrom buf [] a b = [] := rfl

/-- `CK_INIT` starts the collection anew. -/
@[simp] theorem framesFrom_ckInit (buf : List Byte) (is : List Instr) (a : Byte) (b : Bool) :
    framesFrom buf (.ckInit :: is) a b = framesFrom [] is 0x00#8 b := rfl

/-- `CK_ADD` adds its byte to the frame in progress. -/
@[simp] theorem framesFrom_ckAdd (buf : List Byte) (d : Byte) (is : List Instr) (a : Byte) (b : Bool) :
    framesFrom buf (.ckAdd d :: is) a b = framesFrom (buf ++ [d]) is (addByte a d) b := rfl

/-- `CK_END` ends the frame in progress with ACC. -/
@[simp] theorem framesFrom_ckEnd (buf : List Byte) (is : List Instr) (a : Byte) (b : Bool) :
    framesFrom buf (.ckEnd :: is) a b = (buf ++ [a]) :: framesFrom [] is a b := rfl

/-- Only CKG commands emit frame bytes. -/
theorem foValid_respTo_of_not_ckg {i : Instr} (h : isCkg i = false) (a : Byte) (b : Bool) :
    (respTo i a b).foValid = false := by
  cases i with
  | ckAdd d => cases h
  | ckEnd => cases h
  | bcdByte d => cases b <;> simp [respTo]
  | _ => rfl

/-- The other commands leave the frame in progress alone. -/
theorem framesFrom_of_not_ckg {i : Instr} (h : isCkg i = false) (buf : List Byte) (is : List Instr) (a : Byte)
    (b : Bool) : framesFrom buf (i :: is) a b = framesFrom buf is a (termAfter i b) := by
  have hinit : i ≠ .ckInit := by rintro rfl; cases h
  simp [framesFrom, collectFrames, hinit, foValid_respTo_of_not_ckg h, accAfter_of_not_ckg h]

/-- The other commands leave the frame rules alone. -/
theorem framesKept_of_not_ckg {i : Instr} (h : isCkg i = false) (isOpen : Bool) (is : List Instr) :
    framesKept isOpen (i :: is) = framesKept isOpen is := by
  cases i with
  | ckInit => cases h
  | ckAdd d => cases h
  | ckEnd => cases h
  | _ => rfl

/-! ## Frames of a careful host -/

/-- While the frame rules are kept there is one frame for each `CK_END`, and each checks, provided that ACC is the checksum of
the bytes of the frame in progress, if one is open. -/
theorem framesFrom_of_framesKept (is : List Instr) (isOpen : Bool) (buf : List Byte) (a : Byte) (b : Bool)
    (hkept : framesKept isOpen is = true) (hacc : isOpen = true → a = cksum buf) :
    (∀ f ∈ framesFrom buf is a b, frameChecks f) ∧ (framesFrom buf is a b).length = is.count .ckEnd := by
  induction is generalizing isOpen buf a b with
  | nil => simp
  | cons i is ih =>
    cases hckg : isCkg i with
    | false =>
      rw [framesKept_of_not_ckg hckg] at hkept
      rw [framesFrom_of_not_ckg hckg, List.count_cons_of_ne (by rintro rfl; cases hckg)]
      exact ih isOpen buf a (termAfter i b) hkept hacc
    | true =>
      cases i with
      | ckInit => simpa using ih true [] 0x00#8 b hkept fun _ => rfl
      | ckAdd d =>
        obtain ⟨hopen, hkept⟩ : isOpen = true ∧ framesKept true is = true := by simpa [framesKept] using hkept
        simpa using ih true (buf ++ [d]) (addByte a d) b hkept fun _ => by rw [hacc hopen, cksum_append_one]
      | ckEnd =>
        obtain ⟨hopen, hkept⟩ : isOpen = true ∧ framesKept false is = true := by simpa [framesKept] using hkept
        obtain ⟨hchecks, hcount⟩ := ih false [] a b hkept (by simp)
        have hframe : frameChecks (buf ++ [a]) := ⟨buf, by rw [hacc hopen]⟩
        simpa [hcount, hframe] using hchecks
      | _ => cases hckg

/-- Settles O42: with ACC = 0x00 the stream begins in an open frame of no bytes. -/
theorem everyFrameOfACarefulHostChecks : Obligations.EveryFrameOfACarefulHostChecks := by
  intro s ws hreset hacc hkept
  exact ⟨_, _, runWords_eq ws s hreset, afterAll_responses _ s,
    framesFrom_of_framesKept (ws.map decode) true [] s.acc s.term hkept fun _ => hacc⟩

end Sys2Proof.Machine
end

section
/-! Three facts at the edges of the machine: a raw value at the border of a command word (20_memory.md R32), a port that
presents nothing (70_reset_and_hazards.md R100) and the list of responses at reset (R92). -/

namespace Sys2Proof.Machine

/-! ## Raw values -/

/-- A value that fits a command word decodes as that word. -/
theorem decodeRaw_of_lt {v : Nat} (h : v < 4096) : decodeRaw v = .ok (decode (BitVec.ofNat 12 v)) :=
  if_pos h

/-- A value that does not fit a command word is rejected. -/
theorem decodeRaw_of_le {v : Nat} (h : 4096 ≤ v) : decodeRaw v = .error .widerThanCommandWord :=
  if_neg h.not_gt

/-- Settles O19: the two sides of the border at 4096. -/
theorem widerValuesAreRejected : Obligations.WiderValuesAreRejected :=
  fun _ => ⟨decodeRaw_of_le, decodeRaw_of_lt⟩

/-! ## A port that presents nothing -/

/-- Settles O23: a step looks at the port first, and `step_cons` covers a port that presents something. -/
theorem idleStepChangesNothing : Obligations.IdleStepChangesNothing := by
  intro s hport
  simp [step, stepPort, hport]

/-! ## The responses at reset -/

/-- Where no response was returned, every returned response is sound. -/
theorem allSound_of_responses_eq_nil {s : State} (h : s.responses = []) : allSound s := by
  rw [allSound, h, List.all_nil]

/-- Settles O50: no response was returned at reset, as `resetValues` says. -/
theorem resetResponsesAreSound : Obligations.ResetResponsesAreSound := by
  obtain ⟨_, _, _, _, hresponses⟩ := resetValues
  exact allSound_of_responses_eq_nil hresponses

end Sys2Proof.Machine
end
